-- ==== Sys2Proof/Word.lean ====
section
/-!
DEFINITION. The plain bit-level types of GOL-CORE and the bit length of a number.

GOL-CORE has no machine word of one fixed width: the backing word has `BPW` bits and the operand
fields have `CW` and `IW` bits, all parameters of the instance (Config.lean).  What has a fixed width
is the header byte and the 4-bit fields.
-/

namespace Sys2Proof

/-- The command header `Hd` (rule R60). -/
abbrev Header := BitVec 8

/-- A 4-bit field: OP, OPS, OPP, STATUS, RS, RFLT (rules R61, R62, R64). -/
abbrev Nibble := BitVec 4

/-- `bitlen(v)`: the number of bits of the binary form of `v` without leading zeros, `bitlen(0) = 0`
(rule R12). -/
def bitlen (v : Nat) : Nat := if v = 0 then 0 else Nat.log2 v + 1

end Sys2Proof
end

