-- ==== Sys2Proof/Config.lean ====
section
/-!
DEFINITION. The implementation parameters of an instance (00_scope.md section 3) and the widths
derived from them.  Every rule of the spec is stated for every legal value, so the model keeps the
parameters as a record and every definition is written over an arbitrary one.

The model has no free value: the spec fixes every result at the command interface
(93_implementation_defined.md), so this file holds no opaque constant.
-/

namespace Sys2Proof

/-- A pattern: a finite list of integer offsets `(dx, dy)` relative to an anchor (rule R13). -/
abbrev Pattern := List (Int × Int)

/-- The parameters of one instance.  The five proof fields are the construction premises of rule
R161: a record that breaks one of them has no instance. -/
structure Config where
  /-- grid width in cells (rule R7) -/
  W : Nat
  /-- grid height in cells (rule R7) -/
  H : Nat
  /-- bits per backing word (rule R9) -/
  BPW : Nat
  /-- width of a coordinate operand in bits (rule R11) -/
  CW : Nat
  /-- number of internal stepper workers (rule R14) -/
  P : Nat
  /-- the seeder's pattern table (rule R13) -/
  PAT : List Pattern
  W_pos : 1 ≤ W
  H_pos : 1 ≤ H
  BPW_pos : 1 ≤ BPW
  CW_two : 2 ≤ CW
  P_pos : 1 ≤ P
deriving DecidableEq, Repr

/-- `N = W·H`, the number of cells (rule R8). -/
def Config.N (c : Config) : Nat := c.W * c.H

/-- `NW = ceil(N / BPW)`, the number of backing words of one buffer (rule R10). -/
def Config.NW (c : Config) : Nat := (c.N + c.BPW - 1) / c.BPW

/-- `PAD = NW·BPW − N`, the number of padding bits of the last word of a buffer (rule R10). -/
def Config.PAD (c : Config) : Nat := c.NW * c.BPW - c.N

/-- `IW`, the width of a linear-index operand or result (rule R12). -/
def Config.IW (c : Config) : Nat := max 1 (bitlen (c.N - 1))

/-- `XW`, the width of an x result (rule R12). -/
def Config.XW (c : Config) : Nat := max 1 (bitlen (c.W - 1))

/-- `YW`, the width of a y result (rule R12). -/
def Config.YW (c : Config) : Nat := max 1 (bitlen (c.H - 1))

/-- `NPAT`, the number of patterns of the table (rule R13). -/
def Config.NPAT (c : Config) : Nat := c.PAT.length

/-- `PAT[0]` of the reference table: three cells in a row, anchored at the leftmost (rule R141). -/
def blinker : Pattern := [(0, 0), (1, 0), (2, 0)]

/-- `PAT[1]` of the reference table: the glider, whose offsets the spec itself supplies from general
knowledge (rule R141; 93_implementation_defined.md G1).  PRESUMED, log 9. -/
def glider : Pattern := [(1, 0), (2, 1), (0, 2), (1, 2), (2, 2)]

/-- The reference configuration: `W = H = 1000` (rule R7), `BPW = 32` (rule R9), `CW = 32` (rule R11),
`P = 1` (rule R14) and the reference pattern table (rule R141).  That reset uses this one is the
model's choice: DESIGN CHOICE, log 1. -/
def Config.reference : Config :=
  { W := 1000, H := 1000, BPW := 32, CW := 32, P := 1, PAT := [blinker, glider]
    W_pos := by decide, H_pos := by decide, BPW_pos := by decide, CW_two := by decide
    P_pos := by decide }

/-- The construction check (rules R7, R161): the parameters a host asks for are integers, and only
those that meet every premise give a configuration. -/
def Config.ofParams (W H BPW CW P : Int) (PAT : List Pattern) : Option Config :=
  if h : 1 ≤ W ∧ 1 ≤ H ∧ 1 ≤ BPW ∧ 2 ≤ CW ∧ 1 ≤ P then
    some
      { W := W.toNat, H := H.toNat, BPW := BPW.toNat, CW := CW.toNat, P := P.toNat, PAT := PAT
        W_pos := by omega, H_pos := by omega, BPW_pos := by omega, CW_two := by omega
        P_pos := by omega }
  else none

end Sys2Proof
end

