-- ==== Sys2Proof/Syntax.lean ====
section
/-!
DEFINITION. The commands of GOL-CORE, one constructor per row of spec/opcode_table.json (rule R65),
with the operands as the values the decoder reads them as (rules R61 and R63): a coordinate is a
signed integer, an index, count or pattern id an unsigned number, and the header's V bit a Boolean
(`true` is 1).
-/

namespace Sys2Proof

inductive Instr where
  /-- NOP, rule R145 -/
  | nop
  /-- TOIDX x, y, rule R85 -/
  | toidx (x y : Int)
  /-- FROMIDX i, rule R86 -/
  | fromidx (i : Nat)
  /-- GET.XY x, y, rule R95 -/
  | getXY (x y : Int)
  /-- GET.I i, rule R96 -/
  | getI (i : Nat)
  /-- SETA.XY x, y, rule R97 -/
  | setaXY (x y : Int)
  /-- SETD.XY x, y, rule R98 -/
  | setdXY (x y : Int)
  /-- SETS.XY x, y, v, rule R99 -/
  | setsXY (x y : Int) (v : Bool)
  /-- SETA.I i, rule R100 -/
  | setaI (i : Nat)
  /-- SETD.I i, rule R101 -/
  | setdI (i : Nat)
  /-- SETS.I i, v, rule R102 -/
  | setsI (i : Nat) (v : Bool)
  /-- COUNT x, y, rule R114 -/
  | count (x y : Int)
  /-- RULE e, s, rule R122 -/
  | rule (e : Bool) (s : Nat)
  /-- STEP, rule R128 -/
  | step
  /-- SEED ax, ay, pid, rule R142 -/
  | seed (ax ay : Int) (pid : Nat)
  /-- RDSTAT, rule R147 -/
  | rdstat
deriving DecidableEq, Repr

end Sys2Proof
end

