-- ==== Sys2Proof/WellFormed.lean ====
section
/-!
DEFINITION. Which commands have an encoding on an instance: every operand fits its field (rules R61
and R69).  An index need not name a cell and a pattern id need not name a pattern: those range
checks belong to the command (rule R63).
-/

namespace Sys2Proof

/-- `x` is in the range of a `w`-bit two's-complement field (rule R63). -/
def fitsSigned (w : Nat) (x : Int) : Bool := decide (-(2 : Int) ^ (w - 1) ≤ x ∧ x < (2 : Int) ^ (w - 1))

/-- `n` is in the range of a `w`-bit unsigned field (rule R63). -/
def fitsUnsigned (w n : Nat) : Bool := decide (n < 2 ^ w)

/-- Every operand of the command fits its field on an instance of configuration `c`. -/
def Instr.wellFormed (c : Config) : Instr → Bool
  | .nop => true
  | .toidx x y => fitsSigned c.CW x && fitsSigned c.CW y
  | .fromidx i => fitsUnsigned c.IW i
  | .getXY x y => fitsSigned c.CW x && fitsSigned c.CW y
  | .getI i => fitsUnsigned c.IW i
  | .setaXY x y => fitsSigned c.CW x && fitsSigned c.CW y
  | .setdXY x y => fitsSigned c.CW x && fitsSigned c.CW y
  | .setsXY x y _ => fitsSigned c.CW x && fitsSigned c.CW y
  | .setaI i => fitsUnsigned c.IW i
  | .setdI i => fitsUnsigned c.IW i
  | .setsI i _ => fitsUnsigned c.IW i
  | .count x y => fitsSigned c.CW x && fitsSigned c.CW y
  | .rule _ s => fitsUnsigned 4 s
  | .step => true
  | .seed ax ay pid => (fitsSigned c.CW ax && fitsSigned c.CW ay) && fitsUnsigned 4 pid
  | .rdstat => true

end Sys2Proof
end

