-- ==== Sys2Proof/Decode.lean ====
section
/-!
DEFINITION. The command format (rules R60 to R63), the decoder (rule R66) and the encoder (rules R65
and R69).  A command is one header byte and an operand record whose five fields stand on a parallel
bus, so nothing follows the header in a byte stream and no length has to be found.
-/

namespace Sys2Proof

/-- The operand record (rule R61). -/
structure OperandRecord (c : Config) where
  opx : BitVec c.CW := 0
  opy : BitVec c.CW := 0
  opi : BitVec c.IW := 0
  ops : Nibble := 0
  opp : Nibble := 0
deriving DecidableEq, Repr

/-- A command as the host presents it: the header and the operand record (rule R60). -/
structure Command (c : Config) where
  hd : Header
  args : OperandRecord c
deriving DecidableEq, Repr

/-- Why the decoder refuses a header.  Both are reported as ILLEGAL_CMD (rule R66). -/
inductive Reject where
  /-- `Hd[7:5] ≠ 0b000` -/
  | reservedBits
  /-- `Hd[4] = 1` with an operation that has no V operand -/
  | vBitSet
deriving DecidableEq, Repr

/-- `Hd[3:0]` (rule R62). -/
def opField (hd : Header) : Nibble := hd.extractLsb' 0 4

/-- `Hd[4]` (rule R62). -/
def vField (hd : Header) : Bool := hd.getLsbD 4

/-- `Hd[7:5]` (rule R62). -/
def rsvField (hd : Header) : BitVec 3 := hd.extractLsb' 5 3

/-- The operations whose header carries a one-bit immediate (rules R62, R66). -/
def usesV (op : Nibble) : Bool := op == 0x7 || op == 0xA || op == 0xC

/-- `decode(Hd)` of rule R66: the reserved bits first, then the V bit. -/
def decodeHeader (hd : Header) : Except Reject (Nibble × Bool) :=
  if rsvField hd ≠ 0 then .error .reservedBits
  else if vField hd && !usesV (opField hd) then .error .vBitSet
  else .ok (opField hd, vField hd)

/-- The command an operation number selects, with its operands read from the record: coordinates
sign-extended, the other fields zero-extended (rules R61, R63, R65).  Every operation number is
assigned; the last case is `0xF`, the only one left of 16. -/
def instrOf {c : Config} (op : Nibble) (v : Bool) (a : OperandRecord c) : Instr :=
  match op.toNat with
  | 0x0 => .nop
  | 0x1 => .toidx a.opx.toInt a.opy.toInt
  | 0x2 => .fromidx a.opi.toNat
  | 0x3 => .getXY a.opx.toInt a.opy.toInt
  | 0x4 => .getI a.opi.toNat
  | 0x5 => .setaXY a.opx.toInt a.opy.toInt
  | 0x6 => .setdXY a.opx.toInt a.opy.toInt
  | 0x7 => .setsXY a.opx.toInt a.opy.toInt v
  | 0x8 => .setaI a.opi.toNat
  | 0x9 => .setdI a.opi.toNat
  | 0xA => .setsI a.opi.toNat v
  | 0xB => .count a.opx.toInt a.opy.toInt
  | 0xC => .rule v a.ops.toNat
  | 0xD => .step
  | 0xE => .seed a.opx.toInt a.opy.toInt a.opp.toNat
  | _ => .rdstat

/-- The decoder: total on every command, refusing by name. -/
def decode {c : Config} (cmd : Command c) : Except Reject Instr :=
  match decodeHeader cmd.hd with
  | .error r => .error r
  | .ok (op, v) => .ok (instrOf op v cmd.args)

/-- The operation number of a command (rule R65). -/
def opcodeOf : Instr → Nibble
  | .nop => 0x0
  | .toidx _ _ => 0x1
  | .fromidx _ => 0x2
  | .getXY _ _ => 0x3
  | .getI _ => 0x4
  | .setaXY _ _ => 0x5
  | .setdXY _ _ => 0x6
  | .setsXY _ _ _ => 0x7
  | .setaI _ => 0x8
  | .setdI _ => 0x9
  | .setsI _ _ => 0xA
  | .count _ _ => 0xB
  | .rule _ _ => 0xC
  | .step => 0xD
  | .seed _ _ _ => 0xE
  | .rdstat => 0xF

/-- The one-bit immediate of a command's header; 0 where the operation has none (rule R62). -/
def immediateOf : Instr → Bool
  | .setsXY _ _ v => v
  | .setsI _ v => v
  | .rule e _ => e
  | .nop | .toidx _ _ | .fromidx _ | .getXY _ _ | .getI _ | .setaXY _ _ | .setdXY _ _
  | .setaI _ | .setdI _ | .count _ _ | .step | .seed _ _ _ | .rdstat => false

/-- The header byte `000 V OP` of a command (rule R62). -/
def encodeHeader (i : Instr) : Header :=
  (0 : BitVec 3) ++ (BitVec.ofBool (immediateOf i) ++ opcodeOf i)

/-- The operand record of a command; a field the command does not use is 0 (rule R69). -/
def encodeArgs (c : Config) : Instr → OperandRecord c
  | .nop | .step | .rdstat => {}
  | .toidx x y | .getXY x y | .setaXY x y | .setdXY x y | .setsXY x y _ | .count x y =>
      { opx := BitVec.ofInt c.CW x, opy := BitVec.ofInt c.CW y }
  | .fromidx i | .getI i | .setaI i | .setdI i | .setsI i _ => { opi := BitVec.ofNat c.IW i }
  | .rule _ s => { ops := BitVec.ofNat 4 s }
  | .seed ax ay pid =>
      { opx := BitVec.ofInt c.CW ax, opy := BitVec.ofInt c.CW ay, opp := BitVec.ofNat 4 pid }

/-- The encoder: the command whose decoding is `i`, for an `i` that is well-formed on `c`. -/
def encode (c : Config) (i : Instr) : Command c :=
  { hd := encodeHeader i, args := encodeArgs c i }

/-- The command whose header is the low byte of the table word `w` (of `nbits` bits) and whose operand
record is all zero: the opcode table gives a command's 8 header bits and no operand bits. -/
def tableCommand (c : Config) (nbits w : Nat) : Command c :=
  { hd := BitVec.ofNat 8 (w % 2 ^ nbits), args := {} }

/-- The instruction the decoder reads from a word of spec/opcode_table.json.  Zero operands read the
same on every configuration, so the reference one stands for all (log 10). -/
def decodeTableWord (nbits w : Nat) : Option Instr :=
  match decode (tableCommand Config.reference nbits w) with
  | .ok i => some i
  | .error _ => none

end Sys2Proof
end

