-- ==== Sys2Proof/Machine/State.lean ====
section
/-!
DEFINITION. The state of GOL-CORE as plain data, and reset.

`Block` is the persistent state of a GOL-CORE block and nothing else: `buf[0]`, `buf[1]`, `ACT` and `FLT`
(rule R33).  A command's operands and its response are no part of it (rule R21): they are the argument and
the result of `perform`.  The machine the host's interface steps is a block together with its
configuration, which no step changes (rule R29; log 1), and with the other agent of rule R15, the issuer
that holds the commands it has still to issue and the responses it has received (logs 2 and 3).
-/

namespace Sys2Proof.Machine

/-- Why the machine stops.  No command stops it: a command fault is recorded and the block goes on
(rule R165).  The one error left is the source's own, at construction. -/
inductive Fault where
  /-- Raised by `construct` alone, for a configuration that breaks a premise of rule R161: there is no
  instance, so nothing runs.  Safe: the spec itself says no instance exists. -/
  | configError
deriving DecidableEq, Repr

/-- Why an instruction has no meaning. -/
inductive Refusal where
  /-- Raised by `exec` for an instruction the model gives no meaning to, by its mnemonic.  Safe.  No arm
  of this model raises it. -/
  | notModelled (mnemonic : String)
deriving DecidableEq, Repr

/-- The run-time fault causes of rule R160.  The reserved codes 4 to 15 have no constructor. -/
inductive FaultCode where
  /-- a header the decoder refuses -/
  | illegalCmd
  /-- an index operand `≥ N` -/
  | idxRange
  /-- a pattern id `≥ NPAT` -/
  | patRange
deriving DecidableEq, Repr

/-- A grid buffer: the backing words that are not zero, with their word numbers strictly rising.  The
spec's storage has no byte view (rule R42), so the unit is the backing word of `BPW` bits (rules R22,
R43; log 5). -/
abbrev Memory (c : Config) := List (Nat × BitVec c.BPW)

/-- What a word that is not listed reads as: the reset contents of rule R34. -/
def unlistedWord (c : Config) : BitVec c.BPW := 0

/-- The canonical form of a buffer: word numbers strictly rising and below `NW`, no listed word equal
to what an unlisted one reads as. -/
abbrev Memory.wf {c : Config} (m : Memory c) : Prop :=
  m.Pairwise (fun a b => a.1 < b.1) ∧ ∀ e ∈ m, e.1 < c.NW ∧ e.2 ≠ unlistedWord c

/-- The response record (rule R64).  A field a command does not write is 0. -/
structure Response (c : Config) where
  status : Nibble := 0
  rv : BitVec 1 := 0
  ridx : BitVec c.IW := 0
  rx : BitVec c.XW := 0
  ry : BitVec c.YW := 0
  rs : Nibble := 0
  ract : BitVec 1 := 0
  rflt : Nibble := 0
deriving DecidableEq, Repr

/-- The persistent state of one GOL-CORE block of configuration `c` (rule R33). -/
structure Block (c : Config) where
  /-- physical buffer 0 (rule R22) -/
  buf0 : Memory c
  /-- physical buffer 1 (rule R22) -/
  buf1 : Memory c
  /-- the role flag: `buf[ACT]` is active (rule R24) -/
  act : Fin 2
  /-- the sticky fault register (rule R28) -/
  flt : Nibble
deriving DecidableEq, Repr

/-- The host, the one issuer of commands (rule R15): its own list of commands still to issue, first to go
first (log 2), and its own record of the responses it has received, oldest first (log 3).  No command reads
either. -/
structure Issuer (c : Config) where
  pending : List (Command c) := []
  responses : List (Response c) := []
deriving DecidableEq, Repr

/-- The machine: a configuration, the block, and the issuer that drives it. -/
structure State where
  cfg : Config
  blk : Block cfg
  issuer : Issuer cfg
deriving DecidableEq, Repr

/-- The block right after reset (rules R34, R180). -/
def Block.reset (c : Config) : Block c := { buf0 := [], buf1 := [], act := 0, flt := 0 }

/-- Reset of a block of configuration `c`: reset is construction (rule R180), with nothing issued yet. -/
def State.resetOf (c : Config) : State := ⟨c, Block.reset c, {}⟩

/-- The machine right after reset, of the reference configuration (log 1). -/
def State.reset : State := State.resetOf Config.reference

end Sys2Proof.Machine
end

