-- ==== Sys2Proof/Machine/Flags.lean ====
section
/-!
DEFINITION. The two status registers: how `FLT` records a fault and how `ACT` is swapped.  GOL-CORE has
no condition codes (rule R31).
-/

namespace Sys2Proof.Machine

/-- The code of a fault cause (rule R160). -/
def faultCode : FaultCode → Nibble
  | .illegalCmd => 1
  | .idxRange => 2
  | .patRange => 3

/-- `FLT` after a fault of code `code`: sticky, so only a zero register takes the code (rules R28,
R165). -/
def stickyFlt (flt code : Nibble) : Nibble := if flt = 0 then code else flt

/-- The other buffer: `F = 1 − ACT` (rules R18, R24). -/
def otherBuf (b : Fin 2) : Fin 2 := 1 - b

/-- The generation swap `ACT <- 1 − ACT` (rule R126); it moves no data. -/
def swapRoles {c : Config} (m : Block c) : Block c := { m with act := otherBuf m.act }

end Sys2Proof.Machine
end

