-- ==== Sys2Proof/Machine/Operands.lean ====
section
/-!
DEFINITION. What operands name: coordinates by toroidal wrap, indices by the range check, pattern ids
by the table (rules R17, R80 to R83, R91, R142).
-/

namespace Sys2Proof.Machine

/-- `wrap(v, n)`: the non-negative modulo of an integer by a positive integer (rule R17). -/
def wrap (v : Int) (n : Nat) : Nat := (v % (n : Int)).toNat

/-- `toIndex(x, y) = wrap(y, H)·W + wrap(x, W)` on mathematical integers (rules R80, R81).  With `fromIndex`
it keeps the laws of rule R84. -/
def toIndex (c : Config) (x y : Int) : Nat := wrap y c.H * c.W + wrap x c.W

/-- `fromIndex(i) = (i mod W, i div W)`, for `i < N` (rule R83): the inverse of `toIndex` on indices and on
wrapped coordinates (rule R84). -/
def fromIndex (c : Config) (i : Nat) : Nat × Nat := (i % c.W, i / c.W)

/-- The range check of an index operand (rule R91). -/
def indexInRange (c : Config) (i : Nat) : Bool := decide (i < c.N)

/-- The pattern an id names, if the table has it (rule R142). -/
def patternOf (c : Config) (pid : Nat) : Option Pattern := c.PAT[pid]?

end Sys2Proof.Machine
end

