-- ==== Sys2Proof/Machine/Ops.lean ====
section
/-!
DEFINITION. The shared operations: reading and writing a backing word, a cell and a buffer (rules R18,
R40, R90 to R93), raising a fault (rule R165) and ending a command (rules R21, R64).
-/

namespace Sys2Proof.Machine

variable {c : Config}

/-- `WordRead` on one buffer (rule R18). -/
def wordRead : Memory c → Nat → BitVec c.BPW
  | [], _ => unlistedWord c
  | (j, w) :: m, k => if j = k then w else wordRead m k

/-- `WordWrite` on one buffer (rule R18), keeping the canonical form. -/
def wordWrite : Memory c → Nat → BitVec c.BPW → Memory c
  | [], k, w => if w = unlistedWord c then [] else [(k, w)]
  | (j, u) :: m, k, w =>
    if k < j then (if w = unlistedWord c then (j, u) :: m else (k, w) :: (j, u) :: m)
    else if k = j then (if w = unlistedWord c then m else (k, w) :: m)
    else (j, u) :: wordWrite m k w

/-- `CellRead`: bit `i mod BPW` of word `i div BPW` (rules R18, R40). -/
def cellRead (m : Memory c) (i : Nat) : Bool := (wordRead m (i / c.BPW)).getLsbD (i % c.BPW)

/-- The mask-and-blend of rule R92: word `w` with bit `p` set to `v`. -/
def blend (w : BitVec c.BPW) (p : Nat) (v : Bool) : BitVec c.BPW :=
  let m := (1 : BitVec c.BPW) <<< p
  (w &&& ~~~m) ||| ((0 - BitVec.ofNat c.BPW v.toNat) &&& m)

/-- `CellWrite`: a read-modify-write of the owning word (rules R18, R92). -/
def cellWrite (m : Memory c) (i : Nat) (v : Bool) : Memory c :=
  wordWrite m (i / c.BPW) (blend (wordRead m (i / c.BPW)) (i % c.BPW) v)

/-- `buf[b]` (rule R18). -/
def Block.buf (m : Block c) (b : Fin 2) : Memory c := if b = 0 then m.buf0 else m.buf1

/-- `buf[b]` replaced. -/
def Block.setBuf (m : Block c) (b : Fin 2) (x : Memory c) : Block c :=
  if b = 0 then { m with buf0 := x } else { m with buf1 := x }

/-- `getState(b, i)`, for `i < N` (rule R90). -/
def getState (m : Block c) (b : Fin 2) (i : Nat) : Bool := cellRead (m.buf b) i

/-- `setState(b, i, v)`, for `i < N` (rule R92). -/
def setState (m : Block c) (b : Fin 2) (i : Nat) (v : Bool) : Block c :=
  m.setBuf b (cellWrite (m.buf b) i v)

/-- `setAlive(b, i)` (rule R93). -/
def setAlive (m : Block c) (b : Fin 2) (i : Nat) : Block c := setState m b i true

/-- `setDead(b, i)` (rule R93). -/
def setDead (m : Block c) (b : Fin 2) (i : Nat) : Block c := setState m b i false

/-- What a command gives: the block after it and its one response (rules R21, R64). -/
abbrev Result (c : Config) := Block c × Response c

/-- `raise FAULT(code)` (rule R165): the fault is recorded and reported, nothing else happens, and the
block goes on to the next command.  There is no trap entry and no return (rules R168, R169). -/
def raiseFault (m : Block c) (f : FaultCode) : Result c :=
  ({ m with flt := stickyFlt m.flt (faultCode f) }, { status := faultCode f })

/-- An index-addressed command: IDX_RANGE when the index names no cell, before any cell is touched
(rules R91, R163); else `r`. -/
def withIndex (m : Block c) (i : Nat) (r : Result c) : Result c :=
  if indexInRange c i then r else raiseFault m .idxRange

/-- The host receives a response (rules R15, R64). -/
def Issuer.receive (q : Issuer c) (r : Response c) : Issuer c := { q with responses := q.responses ++ [r] }

/-- The command ends: the block is as it left it and the host has the response; the configuration is the
same (rule R29). -/
def finish (s : State) (r : Result s.cfg) : Host.Outcome State Fault Refusal :=
  .next ⟨s.cfg, r.1, s.issuer.receive r.2⟩

end Sys2Proof.Machine
end

