-- ==== Sys2Proof/Machine/Indexing.lean ====
section
/-!
DEFINITION. The indexing commands TOIDX and FROMIDX (41_indexing.md section 2).  They touch no cell and
no status register when they complete (rule R88).
-/

namespace Sys2Proof.Machine

variable {c : Config}

/-- TOIDX (rule R85): the cell index of a coordinate. -/
def toidx (x y : Int) (m : Block c) : Result c := (m, { ridx := BitVec.ofNat c.IW (toIndex c x y) })

/-- FROMIDX (rule R86): the coordinate of a cell index. -/
def fromidx (i : Nat) (m : Block c) : Result c :=
  withIndex m i
    (m, { rx := BitVec.ofNat c.XW (fromIndex c i).1, ry := BitVec.ofNat c.YW (fromIndex c i).2 })

def execToidx (x y : Int) (s : State) : Host.Outcome State Fault Refusal := finish s (toidx x y s.blk)

def execFromidx (i : Nat) (s : State) : Host.Outcome State Fault Refusal := finish s (fromidx i s.blk)

end Sys2Proof.Machine
end

