-- ==== Sys2Proof/Machine/Neighbor.lean ====
section
/-!
DEFINITION. The Moore-neighbourhood counter and COUNT (43_neighbor.md).
-/

namespace Sys2Proof.Machine

/-- `OFFS`, the eight offset positions (rule R110).  The cell itself is not one of them. -/
def mooreOffsets : List (Int × Int) :=
  [(-1, 0), (1, 0), (0, -1), (0, 1), (-1, 1), (1, -1), (-1, -1), (1, 1)]

/-- `count(b, x, y)`: the sum over the eight offset positions, with multiplicity where positions
coincide (rules R110, R111).  The coordinate sums are exact (rule R81). -/
def countLive {c : Config} (m : Block c) (b : Fin 2) (x y : Int) : Nat :=
  (mooreOffsets.map fun d => (getState m b (toIndex c (x + d.1) (y + d.2))).toNat).sum

/-- COUNT (rule R114). -/
def count {c : Config} (x y : Int) (m : Block c) : Result c :=
  (m, { rs := BitVec.ofNat 4 (countLive m m.act x y) })

def execCount (x y : Int) (s : State) : Host.Outcome State Fault Refusal := finish s (count x y s.blk)

end Sys2Proof.Machine
end

