-- ==== Sys2Proof/Machine/RuleStep.lean ====
section
/-!
DEFINITION. The B3/S23 transition rule, the generation stepper, and their commands RULE and STEP
(44_rule_step.md).
-/

namespace Sys2Proof.Machine

variable {c : Config}

/-- `rule(E, S)` (rule R120), the same formula for every `S` (rule R121). -/
def lifeRule (e : Bool) (s : Nat) : Bool := if s = 3 then true else if e = true ∧ s = 2 then true else false

/-- The next state of cell `i`: the rule applied to the cell's own state and its count, both read from
the active buffer of `m` (rules R124, R125). -/
def nextCell (m : Block c) (i : Nat) : Bool :=
  lifeRule (getState m m.act i) (countLive m m.act (fromIndex c i).1 (fromIndex c i).2)

/-- The loop of rule R125 over the cells of `order`: each cell's next state goes into the future
buffer.  Every read is of `m`, the block as it stood when the STEP began (rules R51, R115). -/
def sweep (m : Block c) (order : List Nat) : Block c :=
  m.setBuf (otherBuf m.act)
    (order.foldl (fun f i => cellWrite f i (nextCell m i)) (m.buf (otherBuf m.act)))

/-- One generation: every cell in rising order of index (the order is irrelevant, rule R127; log 6),
then the swap (rule R126).  `P` plays no part at the command interface (rule R14). -/
def stepGeneration (m : Block c) : Block c := swapRoles (sweep m (List.range c.N))

/-- RULE (rule R122). -/
def rule (e : Bool) (n : Nat) (m : Block c) : Result c := (m, { rv := BitVec.ofBool (lifeRule e n) })

/-- STEP (rule R128). -/
def stepCommand (m : Block c) : Result c := (stepGeneration m, {})

def execRule (e : Bool) (n : Nat) (s : State) : Host.Outcome State Fault Refusal :=
  finish s (rule e n s.blk)

def execStep (s : State) : Host.Outcome State Fault Refusal := finish s (stepCommand s.blk)

end Sys2Proof.Machine
end

