-- ==== Sys2Proof/Machine/SeedSystem.lean ====
section
/-!
DEFINITION. The pattern seeder and the system commands SEED, NOP and RDSTAT (45_seed_system.md).
-/

namespace Sys2Proof.Machine

variable {c : Config}

/-- `seed(b, ax, ay, pat)`: every offset's cell is set alive, in list order; nothing is cleared (rule
R140). -/
def seedPattern (m : Block c) (b : Fin 2) (ax ay : Int) (pat : Pattern) : Block c :=
  pat.foldl (fun m d => setAlive m b (toIndex c (ax + d.1) (ay + d.2))) m

/-- SEED (rule R142): PAT_RANGE when the table has no such pattern, before any cell is written. -/
def seed (ax ay : Int) (pid : Nat) (m : Block c) : Result c :=
  match patternOf c pid with
  | none => raiseFault m .patRange
  | some pat => (seedPattern m m.act ax ay pat, {})

/-- NOP (rule R145). -/
def nop (m : Block c) : Result c := (m, {})

/-- RDSTAT (rule R147): it clears nothing. -/
def rdstat (m : Block c) : Result c := (m, { ract := BitVec.ofNat 1 m.act.val, rflt := m.flt })

def execSeed (ax ay : Int) (pid : Nat) (s : State) : Host.Outcome State Fault Refusal :=
  finish s (seed ax ay pid s.blk)

def execNop (s : State) : Host.Outcome State Fault Refusal := finish s (nop s.blk)

def execRdstat (s : State) : Host.Outcome State Fault Refusal := finish s (rdstat s.blk)

end Sys2Proof.Machine
end

