-- ==== Sys2Proof/Machine/Storage.lean ====
section
/-!
DEFINITION. The cell read and write commands (42_storage.md sections 2 and 3).  All address the active
buffer `A = ACT` (rule R26); the `.XY` forms can never be out of range (rule R46), the `.I` forms check
their index (rule R91).
-/

namespace Sys2Proof.Machine

variable {c : Config}

/-- GET.XY (rule R95). -/
def getXY (x y : Int) (m : Block c) : Result c :=
  (m, { rv := BitVec.ofBool (getState m m.act (toIndex c x y)) })

/-- GET.I (rule R96). -/
def getI (i : Nat) (m : Block c) : Result c :=
  withIndex m i (m, { rv := BitVec.ofBool (getState m m.act i) })

/-- SETA.XY (rule R97). -/
def setaXY (x y : Int) (m : Block c) : Result c := (setAlive m m.act (toIndex c x y), {})

/-- SETD.XY (rule R98). -/
def setdXY (x y : Int) (m : Block c) : Result c := (setDead m m.act (toIndex c x y), {})

/-- SETS.XY (rule R99). -/
def setsXY (x y : Int) (v : Bool) (m : Block c) : Result c := (setState m m.act (toIndex c x y) v, {})

/-- SETA.I (rule R100). -/
def setaI (i : Nat) (m : Block c) : Result c := withIndex m i (setAlive m m.act i, {})

/-- SETD.I (rule R101). -/
def setdI (i : Nat) (m : Block c) : Result c := withIndex m i (setDead m m.act i, {})

/-- SETS.I (rule R102). -/
def setsI (i : Nat) (v : Bool) (m : Block c) : Result c := withIndex m i (setState m m.act i v, {})

def execGetXY (x y : Int) (s : State) : Host.Outcome State Fault Refusal := finish s (getXY x y s.blk)

def execGetI (i : Nat) (s : State) : Host.Outcome State Fault Refusal := finish s (getI i s.blk)

def execSetaXY (x y : Int) (s : State) : Host.Outcome State Fault Refusal := finish s (setaXY x y s.blk)

def execSetdXY (x y : Int) (s : State) : Host.Outcome State Fault Refusal := finish s (setdXY x y s.blk)

def execSetsXY (x y : Int) (v : Bool) (s : State) : Host.Outcome State Fault Refusal :=
  finish s (setsXY x y v s.blk)

def execSetaI (i : Nat) (s : State) : Host.Outcome State Fault Refusal := finish s (setaI i s.blk)

def execSetdI (i : Nat) (s : State) : Host.Outcome State Fault Refusal := finish s (setdI i s.blk)

def execSetsI (i : Nat) (v : Bool) (s : State) : Host.Outcome State Fault Refusal :=
  finish s (setsI i v s.blk)

end Sys2Proof.Machine
end

