-- ==== Sys2Proof/Machine/Dispatch.lean ====
section
/-!
DEFINITION. The one dispatch from commands to their meanings, in the order of the opcode map (rule R65).
-/

namespace Sys2Proof.Machine

def exec (i : Instr) (s : State) : Host.Outcome State Fault Refusal :=
  match i with
  | .nop => Sys2Proof.Machine.execNop s
  | .toidx x y => Sys2Proof.Machine.execToidx x y s
  | .fromidx n => Sys2Proof.Machine.execFromidx n s
  | .getXY x y => Sys2Proof.Machine.execGetXY x y s
  | .getI n => Sys2Proof.Machine.execGetI n s
  | .setaXY x y => Sys2Proof.Machine.execSetaXY x y s
  | .setdXY x y => Sys2Proof.Machine.execSetdXY x y s
  | .setsXY x y v => Sys2Proof.Machine.execSetsXY x y v s
  | .setaI n => Sys2Proof.Machine.execSetaI n s
  | .setdI n => Sys2Proof.Machine.execSetdI n s
  | .setsI n v => Sys2Proof.Machine.execSetsI n v s
  | .count x y => Sys2Proof.Machine.execCount x y s
  | .rule e n => Sys2Proof.Machine.execRule e n s
  | .step => Sys2Proof.Machine.execStep s
  | .seed ax ay pid => Sys2Proof.Machine.execSeed ax ay pid s
  | .rdstat => Sys2Proof.Machine.execRdstat s

end Sys2Proof.Machine
end

