-- ==== Sys2Proof/Machine/Port.lean ====
section
/-!
DEFINITION. The host's side of the block (rules R15, R161, R180, R184, R192): construction, and issuing
commands.
-/

namespace Sys2Proof.Machine

variable {c : Config}

/-- Construction (rules R161, R180, R184): an instance in the reset state, or the configuration error
and no instance. -/
def construct (W H BPW CW P : Int) (PAT : List Pattern) : Host.Outcome State Fault Refusal :=
  match Config.ofParams W H BPW CW P PAT with
  | some c => .next (State.resetOf c)
  | none => .fault .configError

/-- The host has more commands to issue, in order, after those it has already (rules R15, R50). -/
def Issuer.issue (q : Issuer c) (cmds : List (Command c)) : Issuer c :=
  { q with pending := q.pending ++ cmds }

/-- The next command the host issues, and the host without it; nothing when it has none to issue. -/
def Issuer.take (q : Issuer c) : Option (Command c × Issuer c) :=
  match q.pending with
  | [] => none
  | cmd :: rest => some (cmd, { q with pending := rest })

/-- The host with `cmd` to issue before every other command. -/
def Issuer.issueNext (q : Issuer c) (cmd : Command c) : Issuer c :=
  { q with pending := cmd :: q.pending }

end Sys2Proof.Machine
end

