-- ==== Sys2Proof/Machine/Step.lean ====
section
/-!
DEFINITION. One step of the machine: the host issues its next command and the block performs it as one
indivisible transition (rules R3, R50).  Decode comes first, so a header it refuses is ILLEGAL_CMD
whatever the operands are (rules R66, R162, R166).  While the host issues nothing the block is idle and
holds all its state (rule R176; log 16).
-/

namespace Sys2Proof.Machine

def step (s : State) : Host.Outcome State Fault Refusal :=
  match s.issuer.take with
  | none => .next s
  | some (cmd, q) =>
    match decode cmd with
    | .error _ => finish ⟨s.cfg, s.blk, q⟩ (raiseFault s.blk .illegalCmd)
    | .ok i => exec i ⟨s.cfg, s.blk, q⟩

/-- `s` with the command of a table word as the next one the host issues, its operand record all zero
(logs 4 and 10). -/
def State.withFetchWord (s : State) (nbits w : Nat) : State :=
  ⟨s.cfg, s.blk, s.issuer.issueNext (tableCommand s.cfg nbits w)⟩

end Sys2Proof.Machine
end

