-- ==== Sys2Proof/Machine/Assembler.lean ====
section
/-!
DEFINITION. The assembler of 30_encoding.md section 3: pseudo-instructions (rule R70), the refusal of an
operand that does not fit its field, and the text form of a line (rule R69).  It is the host's tool, not
the block's: it makes the commands a host issues.  What rules R69 and R70 leave open of the text form
(blanks, the case of letters, the sign, a SEEDL without a pair) is log 11.
-/

namespace Sys2Proof.Machine

/-- A line: a command, or a pseudo-instruction (rules R69, R70). -/
inductive AsmLine where
  | core (i : Instr)
  | seta (x y : Int)
  | setd (x y : Int)
  | get (x y : Int)
  | stepN (n : Nat)
  | seedL (ax ay : Int) (offsets : Pattern)
  | clearAll
deriving DecidableEq, Repr

/-- The commands a line stands for (rule R70).  A SEEDL coordinate is the wrapped one, as the rule writes it,
also where `W` or `H` is above `2^(CW-1)` and it may not fit its field; `assembleInstrs` then refuses the
line (log 11, DESIGN CHOICE). -/
def expandLine (c : Config) : AsmLine → List Instr
  | .core i => [i]
  | .seta x y => [.setaXY x y]
  | .setd x y => [.setdXY x y]
  | .get x y => [.getXY x y]
  | .stepN n => List.replicate n .step
  | .seedL ax ay offsets =>
      offsets.map fun d => .setaXY (wrap (ax + d.1) c.W) (wrap (ay + d.2) c.H)
  | .clearAll => (List.range c.N).map .setdI

/-- The commands of a list of instructions; nothing when an operand does not fit its field (rule R69),
a SEEDL coordinate included (log 11, DESIGN CHOICE). -/
def assembleInstrs (c : Config) : List Instr → Option (List (Command c))
  | [] => some []
  | i :: is => if i.wellFormed c then (assembleInstrs c is).map (encode c i :: ·) else none

/-- The commands of a list of lines. -/
def assembleLines (c : Config) (ls : List AsmLine) : Option (List (Command c)) :=
  assembleInstrs c (ls.flatMap (expandLine c))

/-- An operand as written: an integer, or SEEDL's pair of integers. -/
inductive AsmOperand where
  | int (v : Int)
  | pair (a b : Int)
deriving DecidableEq, Repr

/-- A blank within a line. -/
def isBlank (ch : Char) : Bool := ch == ' ' || ch == '\t' || ch == '\r'

/-- The text without the blanks at both ends. -/
def trimBlanks (cs : List Char) : List Char :=
  ((cs.dropWhile isBlank).reverse.dropWhile isBlank).reverse

/-- The value of a digit in base 10 or 16. -/
def digitValue (base : Nat) (ch : Char) : Option Nat :=
  let n := ch.toNat
  let v := if 48 ≤ n ∧ n ≤ 57 then some (n - 48)
    else if 97 ≤ n ∧ n ≤ 102 then some (n - 87)
    else if 65 ≤ n ∧ n ≤ 70 then some (n - 55) else none
  v.filter (decide <| · < base)

/-- The number a list of digits writes, after the digits already read. -/
def readDigits (base : Nat) : List Char → Nat → Option Nat
  | [], acc => some acc
  | ch :: cs, acc => (digitValue base ch).bind fun d => readDigits base cs (acc * base + d)

/-- A decimal or `0x` number; no digits are no number. -/
def readNatural : List Char → Option Nat
  | '0' :: 'x' :: cs => if cs.isEmpty then none else readDigits 16 cs 0
  | cs => if cs.isEmpty then none else readDigits 10 cs 0

/-- A decimal or `0x` integer.  Rule R69 names no sign: the model takes the hyphen-minus and the minus sign
U+2212, which the spec's own programs print, alike (log 11, DESIGN CHOICE). -/
def readInteger : List Char → Option Int
  | '-' :: cs | '−' :: cs => (readNatural cs).map fun n => -(n : Int)
  | cs => (readNatural cs).map Int.ofNat

/-- The parts of a line between the separators that stand outside parentheses: `depth` counts the open
ones and `part` is the part being read, last character first. -/
def splitOutside (sep : Char) : List Char → Nat → List Char → List (List Char)
  | [], _, part => [part.reverse]
  | ch :: cs, depth, part =>
    if ch = sep ∧ depth = 0 then part.reverse :: splitOutside sep cs 0 []
    else
      splitOutside sep cs
        (if ch = '(' then depth + 1 else if ch = ')' then depth - 1 else depth) (ch :: part)

/-- An operand: an integer, or `(dx,dy)`. -/
def readOperand (cs : List Char) : Option AsmOperand :=
  match trimBlanks cs with
  | '(' :: inside =>
    match inside.reverse with
    | ')' :: rev =>
      match splitOutside ',' rev.reverse 0 [] with
      | [a, b] =>
        (readInteger (trimBlanks a)).bind fun x => (readInteger (trimBlanks b)).map (.pair x ·)
      | _ => none
    | _ => none
  | t => (readInteger t).map .int

/-- Every operand of a list of texts, or nothing. -/
def readOperands : List (List Char) → Option (List AsmOperand)
  | [] => some []
  | t :: ts => (readOperand t).bind fun o => (readOperands ts).map (o :: ·)

/-- The offsets SEEDL lists.  Rule R70 gives no least number of pairs: the model takes none at all too, and
the line then makes no command (log 11, DESIGN CHOICE). -/
def readOffsets : List AsmOperand → Option Pattern
  | [] => some []
  | .pair a b :: os => (readOffsets os).map ((a, b) :: ·)
  | .int _ :: _ => none

/-- An unsigned operand. -/
def asNatural (v : Int) : Option Nat := if 0 ≤ v then some v.toNat else none

/-- A one-bit operand. -/
def asBit (v : Int) : Option Bool := if v = 0 then some false else if v = 1 then some true else none

/-- The line a mnemonic and its operands make (rules R69, R70); nothing where the mnemonic is unknown or
the operands are not the ones its syntax gives it. -/
def lineOf (mnemonic : String) (operands : List AsmOperand) : Option AsmLine :=
  match mnemonic, operands with
  | "NOP", [] => some (.core .nop)
  | "TOIDX", [.int x, .int y] => some (.core (.toidx x y))
  | "FROMIDX", [.int i] => (asNatural i).map fun i => .core (.fromidx i)
  | "GET.XY", [.int x, .int y] => some (.core (.getXY x y))
  | "GET.I", [.int i] => (asNatural i).map fun i => .core (.getI i)
  | "SETA.XY", [.int x, .int y] => some (.core (.setaXY x y))
  | "SETD.XY", [.int x, .int y] => some (.core (.setdXY x y))
  | "SETS.XY", [.int x, .int y, .int v] => (asBit v).map fun v => .core (.setsXY x y v)
  | "SETA.I", [.int i] => (asNatural i).map fun i => .core (.setaI i)
  | "SETD.I", [.int i] => (asNatural i).map fun i => .core (.setdI i)
  | "SETS.I", [.int i, .int v] =>
      (asNatural i).bind fun i => (asBit v).map fun v => .core (.setsI i v)
  | "COUNT", [.int x, .int y] => some (.core (.count x y))
  | "RULE", [.int e, .int s] =>
      (asBit e).bind fun e => (asNatural s).map fun s => .core (.rule e s)
  | "STEP", [] => some (.core .step)
  | "SEED", [.int ax, .int ay, .int pid] =>
      (asNatural pid).map fun pid => .core (.seed ax ay pid)
  | "RDSTAT", [] => some (.core .rdstat)
  | "SETA", [.int x, .int y] => some (.seta x y)
  | "SETD", [.int x, .int y] => some (.setd x y)
  | "GET", [.int x, .int y] => some (.get x y)
  | "STEPN", [.int n] => (asNatural n).map .stepN
  | "SEEDL", .int ax :: .int ay :: offsets => (readOffsets offsets).map (.seedL ax ay)
  | "CLEARALL", [] => some .clearAll
  | _, _ => none

/-- A line of text: no line when it is blank or a comment, else a mnemonic and its operands. -/
def parseLine (cs : List Char) : Option (List AsmLine) :=
  match trimBlanks (cs.takeWhile (· != ';')) with
  | [] => some []
  | t =>
    let mnemonic := String.ofList (t.takeWhile fun ch => !isBlank ch)
    match trimBlanks (t.dropWhile fun ch => !isBlank ch) with
    | [] => (lineOf mnemonic []).map ([·])
    | rest =>
      (readOperands (splitOutside ',' rest 0 [])).bind fun os => (lineOf mnemonic os).map ([·])

/-- The lines of a list of texts, or nothing. -/
def parseLines : List (List Char) → Option (List AsmLine)
  | [] => some []
  | t :: ts => (parseLine t).bind fun l => (parseLines ts).map (l ++ ·)

/-- The lines of a text: a newline ends a line whatever the line holds.  `line` is the line being read, last
character first. -/
def splitLines : List Char → List Char → List (List Char)
  | [], line => [line.reverse]
  | ch :: cs, line => if ch = '\n' then line.reverse :: splitLines cs [] else splitLines cs (ch :: line)

/-- The assembler on a program text, one command a line (rule R69). -/
def assembleText (c : Config) (text : String) : Option (List (Command c)) :=
  (parseLines (splitLines text.toList [])).bind (assembleLines c)

end Sys2Proof.Machine
end

