-- ==== Sys2Proof/Machine/Perform.lean ====
section
/-!
DEFINITION. The step function of the block as rule R21 has it: a command with its operands is the argument,
the block after it and the response record are the result, and nothing else passes from one command to the
next.
-/

namespace Sys2Proof.Machine

variable {c : Config}

/-- What each command does to a block and answers (the rules of R65's last column). -/
def meaning (i : Instr) (m : Block c) : Result c :=
  match i with
  | .nop => nop m
  | .toidx x y => toidx x y m
  | .fromidx n => fromidx n m
  | .getXY x y => getXY x y m
  | .getI n => getI n m
  | .setaXY x y => setaXY x y m
  | .setdXY x y => setdXY x y m
  | .setsXY x y v => setsXY x y v m
  | .setaI n => setaI n m
  | .setdI n => setdI n m
  | .setsI n v => setsI n v m
  | .count x y => count x y m
  | .rule e n => rule e n m
  | .step => stepCommand m
  | .seed ax ay pid => seed ax ay pid m
  | .rdstat => rdstat m

/-- The block performs one command as one indivisible transition (rules R3, R21).  Decode comes first, so a
header it refuses is ILLEGAL_CMD whatever the operands are (rules R66, R162, R166). -/
def perform (cmd : Command c) (m : Block c) : Result c :=
  match decode cmd with
  | .error _ => raiseFault m .illegalCmd
  | .ok i => meaning i m

end Sys2Proof.Machine
end

