-- ==== Sys2Proof/Machine/Workers.lean ====
section
/-!
DEFINITION. The worker refinement of STEP (rules R14, R174, R185 to R189): a generation swept by `P`
workers that take turns in any order.  At the command interface STEP is one transition (rule R50) and
this file plays no part in it; the file says what a STEP may look like inside, so that the refinement
can be stated (log 7).

A worker writes a cell in two events, reading the owning future word and writing it back, unless cell
writes are atomic bit updates.  The schedule says which worker moves next, and, where a word changed
between a worker's read and its write-back, which of its bits the write-back puts back to the stale
value: each such bit is a race with both outcomes (rule R186).
-/

namespace Sys2Proof.Machine

variable {c : Config}

/-- How a worker updates a word of the future buffer (rules R54, R186). -/
inductive WriteDiscipline where
  /-- a read and a later write-back of the word, with nothing to keep others out -/
  | plain
  /-- an atomic bit update -/
  | atomicBit
  /-- a per-word lock held from the read to the write-back -/
  | wordLock
deriving DecidableEq, Repr

/-- `Ω_0, Ω_1, …`: for each worker the cells it owns, in the order it visits them (rule R185). -/
abbrev Partition := List (List Nat)

/-- One set for each of the `P` workers, pairwise disjoint, with union `[0, N)` (rule R185). -/
abbrev Partition.legal (c : Config) (ps : Partition) : Prop :=
  ps.length = c.P ∧ ps.flatten.Perm (List.range c.N)

/-- No backing word holds cells of two workers: case (a) of rule R186. -/
abbrev Partition.wordAligned (c : Config) (ps : Partition) : Prop :=
  ps.Pairwise fun p q => ∀ i ∈ p, ∀ j ∈ q, i / c.BPW ≠ j / c.BPW

/-- What rule R186 asks of an implementation: case (a) or case (b). -/
abbrev conforming (c : Config) (d : WriteDiscipline) (ps : Partition) : Prop :=
  Partition.wordAligned c ps ∨ d = .atomicBit ∨ d = .wordLock

/-- A worker: the cells it has not written, the next one first, and the future word it has read for
that cell and not written back.  Under `wordLock` a held word is a lock held. -/
structure Worker (c : Config) where
  todo : List Nat
  held : Option (BitVec c.BPW)
deriving DecidableEq, Repr

/-- A STEP in progress: the block as it stood when the STEP began, which fixes `A`, `F` and the active
buffer for the whole STEP (rules R187, R188), the future buffer being written, and the workers. -/
structure Sweep (c : Config) where
  start : Block c
  future : Memory c
  workers : List (Worker c)
deriving DecidableEq, Repr

/-- One move of the schedule: a worker's number, and the bits a write-back puts back to the stale value
if they changed since its read. -/
structure WorkerEvent (c : Config) where
  worker : Nat
  stale : BitVec c.BPW
deriving DecidableEq, Repr

/-- All workers start when the STEP starts (rule R174). -/
def startSweep (m : Block c) (ps : Partition) : Sweep c :=
  { start := m, future := m.buf (otherBuf m.act), workers := ps.map fun t => ⟨t, none⟩ }

/-- Some other worker than `p` holds word `k`. -/
def wordHeldByOther (g : Sweep c) (p k : Nat) : Bool :=
  g.workers.zipIdx.any fun (w, q) =>
    decide (q ≠ p) && w.held.isSome && w.todo.head?.any fun i => decide (i / c.BPW = k)

/-- The word a write-back stores: the current word, with the bits of `stale` put back to what the worker
had read, and the worker's own bit set. -/
def writeBack (cur held stale : BitVec c.BPW) (p : Nat) (v : Bool) : BitVec c.BPW :=
  blend ((cur &&& ~~~stale) ||| (held &&& stale)) p v

/-- One worker event.  A worker with nothing left to write, and one that waits for a lock, does not
move. -/
def workerEvent (d : WriteDiscipline) (g : Sweep c) (e : WorkerEvent c) : Sweep c :=
  match g.workers[e.worker]? with
  | none => g
  | some w =>
    match w.todo with
    | [] => g
    | i :: rest =>
      let k := i / c.BPW
      let v := nextCell g.start i
      match w.held with
      | some h =>
        { g with
          future := wordWrite g.future k (writeBack (wordRead g.future k) h e.stale (i % c.BPW) v)
          workers := g.workers.set e.worker ⟨rest, none⟩ }
      | none =>
        match d with
        | .atomicBit =>
          { g with future := cellWrite g.future i v, workers := g.workers.set e.worker ⟨rest, none⟩ }
        | .plain =>
          { g with workers := g.workers.set e.worker ⟨i :: rest, some (wordRead g.future k)⟩ }
        | .wordLock =>
          if wordHeldByOther g e.worker k then g
          else { g with workers := g.workers.set e.worker ⟨i :: rest, some (wordRead g.future k)⟩ }

/-- The events of a schedule, in order. -/
def runSweep (d : WriteDiscipline) (g : Sweep c) (es : List (WorkerEvent c)) : Sweep c :=
  es.foldl (workerEvent d) g

/-- Every worker has written every cell it owns. -/
def Sweep.finished (g : Sweep c) : Bool := g.workers.all fun w => w.todo.isEmpty

/-- The swap, once, after every worker has finished (rules R174, R185, R188); there is none before. -/
def Sweep.swap (g : Sweep c) : Option (Block c) :=
  if g.finished then some (swapRoles (g.start.setBuf (otherBuf g.start.act) g.future)) else none

/-- A separate render read port (rule R189): held, with no answer, while a STEP is in progress; else a
read of the active buffer. -/
def renderRead (inProgress : Option (Sweep c)) (m : Block c) (x y : Int) : Option Bool :=
  match inProgress with
  | some _ => none
  | none => some (getState m m.act (toIndex c x y))

end Sys2Proof.Machine
end

