-- ==== Sys2Proof/Safety.lean ====
section
/-!
DEFINITION. What claims speak of: the machine's invariant, the observation of a run, the host's duties,
the states a run reaches, and the two relations "differs only in what cannot be observed".
-/

namespace Sys2Proof

variable {c : Config}

/-- The commands that seed: they write cells of the active buffer (rule R184). -/
def Instr.seeds : Instr → Bool
  | .setaXY _ _ | .setdXY _ _ | .setsXY _ _ _ | .setaI _ | .setdI _ | .setsI _ _ | .seed _ _ _ => true
  | .nop | .toidx _ _ | .fromidx _ | .getXY _ _ | .getI _ | .count _ _ | .rule _ _ | .step
  | .rdstat => false

/-- The duty to seed before the first STEP only (rules R143, R184). -/
def seedsBeforeFirstStep (is : List Instr) : Prop :=
  ∀ i ∈ is.dropWhile (· != .step), Instr.seeds i = false

/-- `sext_N(v)` as rule R16 writes it: `v − 2^N` when the top bit is set. -/
def sextValue {w : Nat} (v : BitVec w) : Int :=
  if v.getLsbD (w - 1) then (v.toNat : Int) - 2 ^ w else v.toNat

/-- The 19 legal header values (rule R66). -/
def legalHeaders : List Nat := List.range 16 ++ [0x17, 0x1A, 0x1C]

/-- The operations that read OPX and OPY (rule R61). -/
def readsXY (op : Nibble) : Bool := decide (op.toNat ∈ [0x1, 0x3, 0x5, 0x6, 0x7, 0xB, 0xE])

/-- The operations that read OPI (rule R61). -/
def readsI (op : Nibble) : Bool := decide (op.toNat ∈ [0x2, 0x4, 0x8, 0x9, 0xA])

/-- A command with header `hd` is the one `f` makes of its operand record, whatever the record holds
(rules R61, R65). -/
def Selects (c : Config) (hd : Header) (f : OperandRecord c → Instr) : Prop :=
  ∀ a : OperandRecord c, decode (⟨hd, a⟩ : Command c) = .ok (f a)

/-- The commands of one frame: a STEP, then a read of each displayed cell (rule R183). -/
def frameCommands (view : List (Int × Int)) : List Instr :=
  .step :: view.map fun d => .getXY d.1 d.2

/-- `c` with another backing word width and another number of workers (rules R9, R14). -/
def Config.withLayout (c : Config) (BPW P : Nat) (hB : 1 ≤ BPW) (hP : 1 ≤ P) : Config :=
  { c with BPW := BPW, P := P, BPW_pos := hB, P_pos := hP }

/-- The same command, issued to an instance of another layout: the operand fields have the same
widths. -/
def Command.atLayout {BPW P : Nat} {hB : 1 ≤ BPW} {hP : 1 ≤ P} (cmd : Command c) :
    Command (c.withLayout BPW P hB hP) :=
  { hd := cmd.hd
    args := { opx := cmd.args.opx, opy := cmd.args.opy, opi := cmd.args.opi, ops := cmd.args.ops
              opp := cmd.args.opp } }

end Sys2Proof

namespace Sys2Proof.Machine

variable {c : Config}

/-- Padding bits are 0 (rule R30). -/
def Memory.padded (m : Memory c) : Prop :=
  ∀ j, c.N ≤ j → j < c.NW * c.BPW → cellRead m j = false

/-- The invariant of a block: both buffers in canonical form with their padding 0 (rule R30), and a
legal fault register (rule R28). -/
structure Block.Inv (m : Block c) : Prop where
  wf0 : m.buf0.wf
  wf1 : m.buf1.wf
  padded0 : m.buf0.padded
  padded1 : m.buf1.padded
  flt_legal : m.flt.toNat ≤ 3

/-- The invariant of a machine. -/
def State.Inv (s : State) : Prop := s.blk.Inv

/-- A command ended with the block as `m` and the host, who was `q`, has response `r` after the responses it
had. -/
def answered (m : Block c) (q : Issuer c) (r : Response c) : Host.Outcome State Fault Refusal :=
  .next ⟨c, m, { q with responses := q.responses ++ [r] }⟩

/-- A command faulted with `code` on block `m` and did nothing else (rule R165). -/
def faulted (m : Block c) (q : Issuer c) (code : Nibble) : Host.Outcome State Fault Refusal :=
  answered { m with flt := if m.flt = 0 then code else m.flt } q { status := code }

/-- Bit `p` of backing word `k` of buffer `b`. -/
def wordBit (m : Block c) (b : Fin 2) (k p : Nat) : Bool := (wordRead (m.buf b) k).getLsbD p

/-- `m'` is `m` but for buffer `b`, whose every bit outside cell `i` is as before and whose cell `i`
is `v` (rules R92, R97 to R102). -/
structure WroteCell (m m' : Block c) (b : Fin 2) (i : Nat) (v : Bool) : Prop where
  bits : ∀ b' k p, p < c.BPW →
    wordBit m' b' k p = if b' = b ∧ k = i / c.BPW ∧ p = i % c.BPW then v else wordBit m b' k p
  act : m'.act = m.act
  flt : m'.flt = m.flt

/-- The live set of the active buffer (rule R36). -/
def liveSet (m : Block c) : List (Nat × Nat) :=
  ((List.range c.N).filter (getState m m.act)).map (fromIndex c)

/-- What a claim about a run may look at (rule R192). -/
structure Observation (c : Config) where
  live : List (Nat × Nat)
  responses : List (Response c)
  flt : Nibble
deriving DecidableEq, Repr

def observe (m : Block c) (q : Issuer c) : Observation c :=
  { live := liveSet m, responses := q.responses, flt := m.flt }

/-- No command has faulted since reset (rule R165). -/
def Block.clean (m : Block c) : Prop := m.flt = 0

/-- The blocks, with the host beside them, that a run from reset can reach: the host issues commands and the
block performs them (rule R192). -/
inductive Reachable (c : Config) : Block c → Issuer c → Prop
  | reset : Reachable c (Block.reset c) {}
  | issue {m : Block c} {q : Issuer c} (cmds : List (Command c)) : Reachable c m q → Reachable c m (q.issue cmds)
  | step {m m' : Block c} {q q' : Issuer c} : Reachable c m q → step ⟨c, m, q⟩ = .next ⟨c, m', q'⟩ →
      Reachable c m' q'

/-- Two blocks that differ at most in the future buffer (rule R27). -/
structure SameButFuture (m n : Block c) : Prop where
  act : n.act = m.act
  active : n.buf n.act = m.buf m.act
  flt : n.flt = m.flt

/-- The same response, returned by an instance of another layout. -/
def Response.atLayout {BPW P : Nat} {hB : 1 ≤ BPW} {hP : 1 ≤ P} (r : Response c) :
    Response (c.withLayout BPW P hB hP) :=
  { status := r.status, rv := r.rv, ridx := r.ridx, rx := r.rx, ry := r.ry, rs := r.rs
    ract := r.ract, rflt := r.rflt }

/-- The same host, beside an instance of another layout. -/
def Issuer.atLayout {BPW P : Nat} {hB : 1 ≤ BPW} {hP : 1 ≤ P} (q : Issuer c) :
    Issuer (c.withLayout BPW P hB hP) :=
  { pending := q.pending.map Command.atLayout, responses := q.responses.map Response.atLayout }

/-- Two instances that differ only in how cells are grouped in words hold the same cells and status
registers (rules R9, R42). -/
structure SameCells {BPW P : Nat} {hB : 1 ≤ BPW} {hP : 1 ≤ P} (m : Block c)
    (n : Block (c.withLayout BPW P hB hP)) : Prop where
  cells : ∀ b i, i < c.N → getState n b i = getState m b i
  act : n.act = m.act
  flt : n.flt = m.flt

/-- The commands of a list performed one after the other; the first stop ends it. -/
def execAll : List Instr → State → Host.Outcome State Fault Refusal
  | [], s => .next s
  | i :: is, s =>
    match exec i s with
    | .next t => execAll is t
    | .fault f => .fault f
    | .refused r => .refused r

/-- The live cells of the active buffer are exactly the cells at `pat`, anchored at `(ax, ay)`. -/
def LiveExactly (m : Block c) (ax ay : Int) (pat : Pattern) : Prop :=
  ∀ i, i < c.N →
    (getState m m.act i = true ↔ ∃ d ∈ pat, toIndex c (ax + d.1) (ay + d.2) = i)

/-- Life on the unbounded plane: the live neighbours of a point. -/
def planeCount (live : Int → Int → Bool) (x y : Int) : Nat :=
  (mooreOffsets.map fun d => (live (x + d.1) (y + d.2)).toNat).sum

/-- Life on the unbounded plane: the next generation. -/
def planeNext (live : Int → Int → Bool) (x y : Int) : Bool :=
  lifeRule (live x y) (planeCount live x y)

/-- The active buffer shows, on the torus, the plane picture `live` of which only the points of the
`W × H` window at `(x0, y0)` count: every cell is as the window's point that wraps to it. -/
def Shows (m : Block c) (live : Int → Int → Bool) (x0 y0 : Int) : Prop :=
  ∀ x y : Int, x0 ≤ x → x < x0 + c.W → y0 ≤ y → y < y0 + c.H →
    getState m m.act (toIndex c x y) = live x y

end Sys2Proof.Machine
end

