-- ==== Sys2Proof/Certificates/Slice0/Obligations.lean ====
section
/-!
DEFINITION. The statements about the model, for the provers.  Each docstring names the rule of the spec
it formalises.  A statement over `⟨c, m, q⟩` is about a block `m` of an arbitrary legal configuration `c`,
with an arbitrary host `q` that issues its commands and receives its responses; that the host's two lists
stand beside the block in the state is the model's choice (logs 2 and 3), and no statement rests on what
they hold but the ones that say so.
-/

open Sys2Proof Sys2Proof.Machine

/-! ### Reset and construction -/

/-- Rule R34: after reset, of any configuration, every word of both buffers is 0, padding included,
`ACT = 0` and `FLT = 0`. -/
def Obligations.ResetGivesTheSpecValues : Prop :=
  ∀ c : Config, (State.resetOf c).cfg = c ∧
    (∀ b k, wordRead ((Block.reset c).buf b) k = 0) ∧
    (Block.reset c).act = 0 ∧ (Block.reset c).flt = 0 ∧ (State.resetOf c).blk = Block.reset c

/-- Rule R161 with rules R180 and R184: legal parameters give a block of them in the reset state, and
parameters that break a premise give the configuration error and no block.  That construction takes
integers and reports the error as a fault is log 13 (DEDUCED). -/
def Obligations.ConstructionResetsOrRejects : Prop :=
  ∀ (W H BPW CW P : Int) (PAT : List Pattern),
    ((1 ≤ W ∧ 1 ≤ H ∧ 1 ≤ BPW ∧ 2 ≤ CW ∧ 1 ≤ P) →
      ∃ c : Config, (c.W : Int) = W ∧ (c.H : Int) = H ∧ (c.BPW : Int) = BPW ∧ (c.CW : Int) = CW ∧
        (c.P : Int) = P ∧ c.PAT = PAT ∧ construct W H BPW CW P PAT = .next (State.resetOf c)) ∧
    (¬ (1 ≤ W ∧ 1 ≤ H ∧ 1 ≤ BPW ∧ 2 ≤ CW ∧ 1 ≤ P) →
      construct W H BPW CW P PAT = .fault .configError)

/-- Rules R10, R12: the words of a buffer hold the cells with less than a word of padding, and the index
and coordinate fields are the narrowest ones, of at least one bit, that hold every value; with the
widths of the reference configuration. -/
def Obligations.DerivedSizesFitTheGrid : Prop :=
  (∀ c : Config,
    (c.NW - 1) * c.BPW < c.N ∧ c.NW * c.BPW = c.N + c.PAD ∧ c.PAD < c.BPW ∧
    (∀ w, c.IW ≤ w ↔ 1 ≤ w ∧ c.N ≤ 2 ^ w) ∧ (∀ w, c.XW ≤ w ↔ 1 ≤ w ∧ c.W ≤ 2 ^ w) ∧
    (∀ w, c.YW ≤ w ↔ 1 ≤ w ∧ c.H ≤ 2 ^ w)) ∧
  Config.reference.IW = 20 ∧ Config.reference.XW = 10 ∧ Config.reference.YW = 10

/-! ### Encoding -/

/-- Rule R65, with the fields of rules R61 to R63: each legal header selects its command, coordinates
read as two's complement and the other fields as unsigned. -/
def Obligations.LegalHeadersSelectTheirCommands : Prop :=
  ∀ (c : Config) (a : OperandRecord c),
    let x := sextValue a.opx
    let y := sextValue a.opy
    let i := a.opi.toNat
    decode ⟨0x00, a⟩ = .ok .nop ∧ decode ⟨0x01, a⟩ = .ok (.toidx x y) ∧
    decode ⟨0x02, a⟩ = .ok (.fromidx i) ∧ decode ⟨0x03, a⟩ = .ok (.getXY x y) ∧
    decode ⟨0x04, a⟩ = .ok (.getI i) ∧ decode ⟨0x05, a⟩ = .ok (.setaXY x y) ∧
    decode ⟨0x06, a⟩ = .ok (.setdXY x y) ∧ decode ⟨0x07, a⟩ = .ok (.setsXY x y false) ∧
    decode ⟨0x17, a⟩ = .ok (.setsXY x y true) ∧ decode ⟨0x08, a⟩ = .ok (.setaI i) ∧
    decode ⟨0x09, a⟩ = .ok (.setdI i) ∧ decode ⟨0x0A, a⟩ = .ok (.setsI i false) ∧
    decode ⟨0x1A, a⟩ = .ok (.setsI i true) ∧ decode ⟨0x0B, a⟩ = .ok (.count x y) ∧
    decode ⟨0x0C, a⟩ = .ok (.rule false a.ops.toNat) ∧
    decode ⟨0x1C, a⟩ = .ok (.rule true a.ops.toNat) ∧ decode ⟨0x0D, a⟩ = .ok .step ∧
    decode ⟨0x0E, a⟩ = .ok (.seed x y a.opp.toNat) ∧ decode ⟨0x0F, a⟩ = .ok .rdstat

/-- The opcode table's words, written out from their encodings, decode to their commands, and a reserved
bit or a stray V bit is refused (rules R62, R65, R66).  The table gives a word no operand bits: that every
operand is then 0 is log 10 (DESIGN CHOICE). -/
def Obligations.TableWordsDecode : Prop :=
  decodeTableWord 8 0b00000000 = some .nop ∧
  decodeTableWord 8 0b00000001 = some (.toidx 0 0) ∧
  decodeTableWord 8 0b00000100 = some (.getI 0) ∧
  decodeTableWord 8 0b00010111 = some (.setsXY 0 0 true) ∧
  decodeTableWord 8 0b00001011 = some (.count 0 0) ∧
  decodeTableWord 8 0b00011100 = some (.rule true 0) ∧
  decodeTableWord 8 0b00001101 = some .step ∧
  decodeTableWord 8 0b00001110 = some (.seed 0 0 0) ∧
  decodeTableWord 8 0b00011101 = none ∧ decodeTableWord 8 0b00100100 = none

/-- Rules R66, R162: exactly the 19 listed header values, those with RSV 0 and with V 0 or an operation
that has a V operand, decode, to their OP and V fields; a command with any other header, whatever its
operands, is performed as the fault ILLEGAL_CMD and nothing else. -/
def Obligations.IllegalHeadersFault : Prop :=
  ∀ (c : Config) (hd : Header) (a : OperandRecord c),
    (hd.toNat ∈ legalHeaders ↔
      hd.toNat / 32 = 0 ∧ (hd.toNat / 16 % 2 = 1 → hd.toNat % 16 ∈ [0x7, 0xA, 0xC])) ∧
    (hd.toNat ∈ legalHeaders → ∃ op v, decodeHeader hd = .ok (op, v) ∧ op.toNat = hd.toNat % 16 ∧
      v.toNat = hd.toNat / 16 % 2 ∧ decode ⟨hd, a⟩ = .ok (instrOf op v a)) ∧
    (hd.toNat ∉ legalHeaders → ∀ (m : Block c) (q : Issuer c) (rest : List (Command c)),
      q.pending = ⟨hd, a⟩ :: rest → step ⟨c, m, q⟩ = faulted m { q with pending := rest } 1)

/-- Every well-formed command is decoded from its encoding, with every operand at every value its field
admits (rules R62, R63, R65, R69). -/
def Obligations.DecodeOfEncodeIsTheCommand : Prop :=
  ∀ (c : Config) (i : Instr), i.wellFormed c = true → decode (encode c i) = .ok i

/-- What the decoder accepts is well-formed, and its encoding has the same header and decodes to the same
command (rules R63, R69). -/
def Obligations.EncodeOfDecodeKeepsTheHeader : Prop :=
  ∀ (c : Config) (cmd : Command c) (i : Instr), decode cmd = .ok i →
    i.wellFormed c = true ∧ (encode c i).hd = cmd.hd ∧ decode (encode c i) = .ok i

/-- Rule R61: a command reads only the operand fields its rule names. -/
def Obligations.UnusedOperandFieldsAreIgnored : Prop :=
  ∀ (c : Config) (hd : Header) (a a' : OperandRecord c),
    (readsXY (opField hd) = true → a.opx = a'.opx ∧ a.opy = a'.opy) →
    (readsI (opField hd) = true → a.opi = a'.opi) →
    (opField hd = 0xC → a.ops = a'.ops) →
    (opField hd = 0xE → a.opp = a'.opp) →
    decode ⟨hd, a⟩ = decode ⟨hd, a'⟩

/-! ### Indexing -/

/-- Rules R80, R82, R87: the index formula on all integers, its range, and the wraparound law. -/
def Obligations.ToIndexWrapsIntoTheGrid : Prop :=
  ∀ (c : Config) (x y : Int),
    (toIndex c x y : Int) = y % c.H * c.W + x % c.W ∧ toIndex c x y < c.N ∧
    toIndex c x y = toIndex c (x % c.W) (y % c.H) ∧
    (∀ k l : Int, toIndex c (x + k * c.W) (y + l * c.H) = toIndex c x y)

/-- Rule R84: the two indexing functions are inverse on indices and on wrapped coordinates, and `toIndex`
restricted to the grid is a bijection onto the indices. -/
def Obligations.IndexingFunctionsAreInverse : Prop :=
  ∀ c : Config,
    (∀ i, i < c.N → toIndex c (fromIndex c i).1 (fromIndex c i).2 = i) ∧
    (∀ x y : Int, fromIndex c (toIndex c x y) = (wrap x c.W, wrap y c.H)) ∧
    Set.BijOn (fun p : Nat × Nat => toIndex c p.1 p.2) {p | p.1 < c.W ∧ p.2 < c.H} {i | i < c.N}

/-- Rule R85: TOIDX completes on every coordinate and answers the cell index; nothing else changes. -/
def Obligations.ToidxAnswersTheCellIndex : Prop :=
  ∀ c : Config, (Selects c 0x01 fun a => .toidx (sextValue a.opx) (sextValue a.opy)) ∧
    ∀ (m : Block c) (x y : Int), ∃ r : BitVec c.IW,
    (∀ q, exec (.toidx x y) ⟨c, m, q⟩ = answered m q { ridx := r }) ∧
    (r.toNat : Int) = y % c.H * c.W + x % c.W ∧ r.toNat < c.N

/-- Rule R86: FROMIDX completes on every index of a cell and answers its coordinate, and on any other
index faults with IDX_RANGE; nothing else changes. -/
def Obligations.FromidxAnswersTheCoordinate : Prop :=
  ∀ c : Config, (Selects c 0x02 fun a => .fromidx a.opi.toNat) ∧ ∀ (m : Block c) (i : Nat),
    (i < c.N → ∃ (rx : BitVec c.XW) (ry : BitVec c.YW),
      (∀ q, exec (.fromidx i) ⟨c, m, q⟩ = answered m q { rx := rx, ry := ry }) ∧
      rx.toNat = i % c.W ∧ ry.toNat = i / c.W ∧ rx.toNat < c.W ∧ ry.toNat < c.H) ∧
    (c.N ≤ i → ∀ q, exec (.fromidx i) ⟨c, m, q⟩ = faulted m q 2)

/-- Rules R91, R163: an index-addressed command faults with IDX_RANGE, and touches no cell, when its index is
`≥ N`, and completes otherwise; a coordinate-addressed command never faults with IDX_RANGE, and only SEED
of a pattern the table does not have faults at all. -/
def Obligations.OnlyBadIndicesFaultIdxRange : Prop :=
  ∀ (c : Config) (m : Block c) (q : Issuer c),
    (∀ (i : Nat) (v : Bool), ∀ j ∈ [Instr.fromidx i, .getI i, .setaI i, .setdI i, .setsI i v],
      (c.N ≤ i → exec j ⟨c, m, q⟩ = faulted m q 2) ∧
      (i < c.N → ∃ m' r, exec j ⟨c, m, q⟩ = answered m' q r ∧ m'.flt = m.flt ∧ r.status = 0)) ∧
    (∀ (x y : Int) (v : Bool) (pid : Nat), ∀ j ∈ [Instr.toidx x y, .getXY x y, .setaXY x y, .setdXY x y,
        .setsXY x y v, .count x y, .seed x y pid],
      ∃ m' r, exec j ⟨c, m, q⟩ = answered m' q r ∧ r.status ≠ 2 ∧
        ((∀ ax ay, j ≠ .seed ax ay pid) ∨ pid < c.NPAT → m'.flt = m.flt ∧ r.status = 0))

/-! ### Storage -/

/-- Rule R40: cell `i` is bit `i mod BPW`, counted from the least significant, of word `i div BPW`,
which is a word of the buffer. -/
def Obligations.CellIsABitOfItsWord : Prop :=
  ∀ (c : Config) (m : Block c) (b : Fin 2) (i : Nat), i < c.N →
    i / c.BPW < c.NW ∧
    (getState m b i).toNat = ((wordRead (m.buf b) (i / c.BPW)).toNat >>> (i % c.BPW)) &&& 1

/-- Rule R94: isolation, read after write, idempotence, last write wins, and padding never written. -/
def Obligations.CellWritesAreIsolated : Prop :=
  ∀ (c : Config) (m : Block c) (b : Fin 2) (i : Nat) (v w : Bool),
    m.buf0.wf → m.buf1.wf → i < c.N →
    (∀ j, j < c.N → j ≠ i → getState (setState m b i v) b j = getState m b j) ∧
    (∀ j, j < c.N → getState (setState m b i v) (otherBuf b) j = getState m (otherBuf b) j) ∧
    getState (setState m b i v) b i = v ∧
    setAlive (setAlive m b i) b i = setAlive m b i ∧
    setDead (setDead m b i) b i = setDead m b i ∧
    setState (setState m b i v) b i w = setState m b i w ∧
    (∀ b' j, c.N ≤ j → j < c.NW * c.BPW →
      cellRead ((setState m b i v).buf b') j = cellRead (m.buf b') j)

/-- Rules R95, R96: a GET completes (GET.I on an index of a cell) and answers the cell's bit of the
active buffer; nothing else changes. -/
def Obligations.GetAnswersTheActiveCell : Prop :=
  ∀ c : Config, (Selects c 0x03 fun a => .getXY (sextValue a.opx) (sextValue a.opy)) ∧
    (Selects c 0x04 fun a => .getI a.opi.toNat) ∧ ∀ (m : Block c) (q : Issuer c),
    (∀ x y : Int, exec (.getXY x y) ⟨c, m, q⟩ = answered m q
      { rv := BitVec.ofBool (wordBit m m.act (toIndex c x y / c.BPW) (toIndex c x y % c.BPW)) }) ∧
    (∀ i, i < c.N → exec (.getI i) ⟨c, m, q⟩ = answered m q
      { rv := BitVec.ofBool (wordBit m m.act (i / c.BPW) (i % c.BPW)) }) ∧
    (∀ i, c.N ≤ i → exec (.getI i) ⟨c, m, q⟩ = faulted m q 2)

/-- Rules R97 to R99: SETA.XY, SETD.XY and SETS.XY complete on every coordinate and write one bit of the
active buffer; every other bit of both buffers, `ACT` and `FLT` are unchanged. -/
def Obligations.SetByCoordinateWritesOneCell : Prop :=
  ∀ c : Config, (Selects c 0x05 fun a => .setaXY (sextValue a.opx) (sextValue a.opy)) ∧
    (Selects c 0x06 fun a => .setdXY (sextValue a.opx) (sextValue a.opy)) ∧
    (Selects c 0x07 fun a => .setsXY (sextValue a.opx) (sextValue a.opy) false) ∧
    (Selects c 0x17 fun a => .setsXY (sextValue a.opx) (sextValue a.opy) true) ∧
    ∀ (m : Block c) (x y : Int) (v : Bool), m.Inv →
    (∃ m', (∀ q, exec (.setaXY x y) ⟨c, m, q⟩ = answered m' q {}) ∧
      WroteCell m m' m.act (toIndex c x y) true) ∧
    (∃ m', (∀ q, exec (.setdXY x y) ⟨c, m, q⟩ = answered m' q {}) ∧
      WroteCell m m' m.act (toIndex c x y) false) ∧
    (∃ m', (∀ q, exec (.setsXY x y v) ⟨c, m, q⟩ = answered m' q {}) ∧
      WroteCell m m' m.act (toIndex c x y) v)

/-- Rules R100 to R102: SETA.I, SETD.I and SETS.I complete on every index of a cell and write one bit of
the active buffer, every other bit of both buffers, `ACT` and `FLT` unchanged; any other index faults
with IDX_RANGE and writes nothing. -/
def Obligations.SetByIndexWritesOneCell : Prop :=
  ∀ c : Config, (Selects c 0x08 fun a => .setaI a.opi.toNat) ∧
    (Selects c 0x09 fun a => .setdI a.opi.toNat) ∧
    (Selects c 0x0A fun a => .setsI a.opi.toNat false) ∧
    (Selects c 0x1A fun a => .setsI a.opi.toNat true) ∧
    ∀ (m : Block c) (i : Nat) (v : Bool), m.Inv →
    (i < c.N →
      (∃ m', (∀ q, exec (.setaI i) ⟨c, m, q⟩ = answered m' q {}) ∧
        WroteCell m m' m.act i true) ∧
      (∃ m', (∀ q, exec (.setdI i) ⟨c, m, q⟩ = answered m' q {}) ∧
        WroteCell m m' m.act i false) ∧
      (∃ m', (∀ q, exec (.setsI i v) ⟨c, m, q⟩ = answered m' q {}) ∧
        WroteCell m m' m.act i v)) ∧
    (c.N ≤ i →
      (∀ q, exec (.setaI i) ⟨c, m, q⟩ = faulted m q 2) ∧
      (∀ q, exec (.setdI i) ⟨c, m, q⟩ = faulted m q 2) ∧
      (∀ q, exec (.setsI i v) ⟨c, m, q⟩ = faulted m q 2))

/-- The frame of the commands that write no cell: both buffers, `ACT` and the commands still to issue are
unchanged, and `FLT` too unless an index names no cell (rules R47, R48, R88). -/
def Obligations.ReadingCommandsChangeNoCell : Prop :=
  ∀ (c : Config) (m m' : Block c) (q q' : Issuer c) (i : Instr), i.seeds = false → i ≠ .step →
    exec i ⟨c, m, q⟩ = .next ⟨c, m', q'⟩ →
    m'.buf0 = m.buf0 ∧ m'.buf1 = m.buf1 ∧ m'.act = m.act ∧ q'.pending = q.pending ∧
    ((∀ n, i = .fromidx n ∨ i = .getI n → n < c.N) → m'.flt = m.flt)

/-! ### The neighbour counter -/

/-- Rule R113: the circuit form of the count, over the wrapped coordinate and its neighbour rows and
columns. -/
def Obligations.CountEqualsItsCircuitForm : Prop :=
  ∀ (c : Config) (m : Block c) (b : Fin 2) (x y : Int),
    let x' := wrap x c.W
    let y' := wrap y c.H
    let xm := if x' = 0 then c.W - 1 else x' - 1
    let xp := if x' = c.W - 1 then 0 else x' + 1
    let ym := if y' = 0 then c.H - 1 else y' - 1
    let yp := if y' = c.H - 1 then 0 else y' + 1
    let g := fun row col => (getState m b (row * c.W + col)).toNat
    countLive m b x y =
      g ym xm + g ym x' + g ym xp + g y' xm + g y' xp + g yp xm + g yp x' + g yp xp

/-- Rule R111: the eight positions are counted with multiplicity; they are eight other cells when
`W, H ≥ 3`, and coincide as the rule says on smaller grids. -/
def Obligations.CoincidingNeighboursCountEachTime : Prop :=
  ∀ (c : Config) (m : Block c) (b : Fin 2) (x y : Int),
    let at' := fun dx dy : Int => toIndex c (x + dx) (y + dy)
    countLive m b x y = ((mooreOffsets.map fun d => at' d.1 d.2).map fun i => (getState m b i).toNat).sum ∧
    (3 ≤ c.W → 3 ≤ c.H → (mooreOffsets.map fun d => at' d.1 d.2).Nodup ∧
      toIndex c x y ∉ mooreOffsets.map fun d => at' d.1 d.2) ∧
    (c.W = 1 → ∀ dy, at' (-1) dy = at' 0 dy ∧ at' 1 dy = at' 0 dy) ∧
    (c.W = 2 → ∀ dy, at' (-1) dy = at' 1 dy) ∧
    (c.H = 1 → ∀ dx, at' dx (-1) = at' dx 0 ∧ at' dx 1 = at' dx 0) ∧
    (c.H = 2 → ∀ dx, at' dx (-1) = at' dx 1) ∧
    (c.W = 1 → c.H = 1 → countLive m b x y = 8 * (getState m b 0).toNat)

/-- Rules R112, R114, with the sum of rule R110 written out: COUNT completes on every coordinate and
answers the sum of the eight neighbours' bits; nothing else changes; a count is at most 8. -/
def Obligations.CountAnswersTheLiveNeighbours : Prop :=
  ∀ c : Config, (Selects c 0x0B fun a => .count (sextValue a.opx) (sextValue a.opy)) ∧
    (∀ (m : Block c) (b : Fin 2) (x y : Int), countLive m b x y ≤ 8) ∧
    ∀ (m : Block c) (x y : Int), ∃ r : Nibble,
    (∀ q, exec (.count x y) ⟨c, m, q⟩ = answered m q { rs := r }) ∧
    r.toNat =
      (getState m m.act (toIndex c (x - 1) (y - 1))).toNat + (getState m m.act (toIndex c x (y - 1))).toNat +
      (getState m m.act (toIndex c (x + 1) (y - 1))).toNat + (getState m m.act (toIndex c (x - 1) y)).toNat +
      (getState m m.act (toIndex c (x + 1) y)).toNat + (getState m m.act (toIndex c (x - 1) (y + 1))).toNat +
      (getState m m.act (toIndex c x (y + 1))).toNat + (getState m m.act (toIndex c (x + 1) (y + 1))).toNat ∧
    r.toNat ≤ 8

/-! ### The rule and the stepper -/

/-- Rules R120 to R122: RULE completes on every `e` and `s` and answers 1 exactly when `s = 3`, or
`e = 1` and `s = 2`; nothing else changes. -/
def Obligations.RuleAnswersB3S23 : Prop :=
  ∀ c : Config, (Selects c 0x0C fun a => .rule false a.ops.toNat) ∧
    (Selects c 0x1C fun a => .rule true a.ops.toNat) ∧
    ∀ (m : Block c) (q : Issuer c) (e : Bool) (n : Nat),
    exec (.rule e n) ⟨c, m, q⟩ = answered m q { rv := if n = 3 ∨ (e = true ∧ n = 2) then 1 else 0 }

/-- Rules R124, R125, R126, R128: STEP completes; every cell of the buffer that becomes active is the
rule applied to the cell's state and its live neighbours in the buffer that was; the buffer that was
active, the padding and `FLT` are unchanged; `ACT` toggles. -/
def Obligations.StepAdvancesOneGeneration : Prop :=
  ∀ c : Config, (Selects c 0x0D fun _ => .step) ∧ ∀ m : Block c, m.Inv → ∃ m',
    (∀ q, exec .step ⟨c, m, q⟩ = answered m' q {}) ∧
    m'.act.val = 1 - m.act.val ∧
    (∀ i, i < c.N →
      let e := getState m m.act i
      let s := (mooreOffsets.map fun d =>
        (getState m m.act (toIndex c ((i % c.W : Nat) + d.1) ((i / c.W : Nat) + d.2))).toNat).sum
      (getState m' m'.act i = true ↔ s = 3 ∨ (e = true ∧ s = 2))) ∧
    m'.buf m.act = m.buf m.act ∧ (m'.buf m'.act).padded ∧ m'.flt = m.flt

/-- Rule R127: the generation is the same whatever order the cells are visited in. -/
def Obligations.StepIsIndependentOfOrder : Prop :=
  ∀ (c : Config) (m : Block c) (q : Issuer c) (order : List Nat), m.buf0.wf → m.buf1.wf →
    order.Perm (List.range c.N) →
    exec .step ⟨c, m, q⟩ = answered (swapRoles (sweep m order)) q {}

/-- Rule R129: a dead grid stays dead however often it is stepped, and a fully alive grid dies at the
next step, on a grid of any size. -/
def Obligations.DeadGridStaysDeadAndFullGridDies : Prop :=
  ∀ (c : Config) (m : Block c) (q : Issuer c), m.Inv →
    ((∀ i, i < c.N → getState m m.act i = false) →
      ∀ n, ∃ m' q', execAll (List.replicate n .step) ⟨c, m, q⟩ = .next ⟨c, m', q'⟩ ∧
        ∀ i, i < c.N → getState m' m'.act i = false) ∧
    ((∀ i, i < c.N → getState m m.act i = true) →
      ∃ m', exec .step ⟨c, m, q⟩ = answered m' q {} ∧ ∀ i, i < c.N → getState m' m'.act i = false)

/-- STEP commutes with every shift of the torus: a shifted grid steps to the shifted next generation
(from rules R87, R110, R124). -/
def Obligations.StepCommutesWithTorusShifts : Prop :=
  ∀ (c : Config) (m n m' n' : Block c) (p q p' q' : Issuer c) (a b : Int), m.Inv → n.Inv →
    (∀ x y : Int, getState n n.act (toIndex c (x + a) (y + b)) = getState m m.act (toIndex c x y)) →
    exec .step ⟨c, m, q⟩ = .next ⟨c, m', q'⟩ → exec .step ⟨c, n, p⟩ = .next ⟨c, n', p'⟩ →
    ∀ x y : Int, getState n' n'.act (toIndex c (x + a) (y + b)) = getState m' m'.act (toIndex c x y)

/-- On the torus STEP is Life on the unbounded plane, for every picture that keeps one cell away from the
edges of a window of the grid's size (from rules R84, R87, R110, R124). -/
def Obligations.StepIsPlaneLifeInsideAWindow : Prop :=
  ∀ (c : Config) (m m' : Block c) (q q' : Issuer c) (live : Int → Int → Bool) (x0 y0 : Int), m.Inv →
    (∀ x y, live x y = true → x0 + 1 ≤ x ∧ x + 1 < x0 + c.W ∧ y0 + 1 ≤ y ∧ y + 1 < y0 + c.H) →
    Shows m live x0 y0 → exec .step ⟨c, m, q⟩ = .next ⟨c, m', q'⟩ → Shows m' (planeNext live) x0 y0

/-- 95_test_vectors.md S5: a 2×2 block with no other live cell is unchanged by a STEP, anywhere on every
grid of at least 4×4 cells. -/
def Obligations.BlockIsAStillLife : Prop :=
  ∀ (c : Config) (m : Block c) (q : Issuer c) (x y : Int), m.Inv → 4 ≤ c.W → 4 ≤ c.H →
    LiveExactly m x y [(0, 0), (1, 0), (0, 1), (1, 1)] →
    ∃ m', exec .step ⟨c, m, q⟩ = answered m' q {} ∧ LiveExactly m' x y [(0, 0), (1, 0), (0, 1), (1, 1)]

/-- 95_test_vectors.md S6: the horizontal three-cell line at row `r`, columns `k` to `k + 2`, becomes the
vertical line at column `k + 1`, rows `r - 1` to `r + 1`, and returns at the second STEP, anywhere on
every grid of at least 5×5 cells. -/
def Obligations.BlinkerHasPeriodTwo : Prop :=
  ∀ (c : Config) (m : Block c) (q : Issuer c) (k r : Int), m.Inv → 5 ≤ c.W → 5 ≤ c.H →
    LiveExactly m k r [(0, 0), (1, 0), (2, 0)] →
    ∃ m' m'', exec .step ⟨c, m, q⟩ = answered m' q {} ∧ exec .step ⟨c, m', q⟩ = answered m'' q {} ∧
      LiveExactly m' k r [(1, -1), (1, 0), (1, 1)] ∧ LiveExactly m'' k r [(0, 0), (1, 0), (2, 0)]

/-- 95_test_vectors.md S8: the reference glider is moved by one cell along both axes after four STEPs,
with no other live cell, anywhere on every grid of at least 6×6 cells. -/
def Obligations.GliderMovesDiagonallyInFourSteps : Prop :=
  ∀ (c : Config) (m : Block c) (q : Issuer c) (x y : Int), m.Inv → 6 ≤ c.W → 6 ≤ c.H →
    LiveExactly m x y glider →
    ∃ m' q', execAll [.step, .step, .step, .step] ⟨c, m, q⟩ = .next ⟨c, m', q'⟩ ∧
      LiveExactly m' (x + 1) (y + 1) glider

/-! ### The seeder and the system commands -/

/-- Rules R142, R164: SEED completes on every pattern of the table and sets alive exactly the cells the
pattern names, every other bit of both buffers, `ACT` and `FLT` unchanged; any other pattern id faults
with PAT_RANGE and writes nothing. -/
def Obligations.SeedAddsThePattern : Prop :=
  ∀ c : Config,
    (Selects c 0x0E fun a => .seed (sextValue a.opx) (sextValue a.opy) a.opp.toNat) ∧
    ∀ (m : Block c) (ax ay : Int) (pid : Nat), m.Inv →
    (∀ h : pid < c.PAT.length, ∃ m',
      (∀ q, exec (.seed ax ay pid) ⟨c, m, q⟩ = answered m' q {}) ∧
      (∀ j, getState m' m.act j = true ↔
        getState m m.act j = true ∨ ∃ d ∈ c.PAT[pid], toIndex c (ax + d.1) (ay + d.2) = j) ∧
      m'.buf (otherBuf m.act) = m.buf (otherBuf m.act) ∧ m'.act = m.act ∧ m'.flt = m.flt) ∧
    (c.PAT.length ≤ pid → ∀ q, exec (.seed ax ay pid) ⟨c, m, q⟩ = faulted m q 3)

/-- The order of a pattern's offsets does not change what it seeds (rule R140). -/
def Obligations.SeedIsIndependentOfOffsetOrder : Prop :=
  ∀ (c : Config) (m : Block c) (b : Fin 2) (ax ay : Int) (pat pat' : Pattern),
    m.buf0.wf → m.buf1.wf → pat.Perm pat' → seedPattern m b ax ay pat = seedPattern m b ax ay pat'

/-- Rule R145: NOP completes, answers a response with every field 0, and changes nothing else; its header
with V set is refused. -/
def Obligations.NopAnswersZero : Prop :=
  ∀ c : Config, (Selects c 0x00 fun _ => .nop) ∧
    (∀ a : OperandRecord c, decode ⟨0x10, a⟩ = .error .vBitSet) ∧
    ∀ (m : Block c) (q : Issuer c), exec .nop ⟨c, m, q⟩ = answered m q {}

/-- Rule R147: RDSTAT completes, answers `ACT` and `FLT` and clears neither; after reset and `n` STEPs
`ACT` is the parity of `n`; after a fault `FLT` is the code of the first one. -/
def Obligations.RdstatReadsTheStatusRegisters : Prop :=
  ∀ c : Config, (Selects c 0x0F fun _ => .rdstat) ∧
    (∀ (m : Block c) (q : Issuer c), exec .rdstat ⟨c, m, q⟩ =
      answered m q { ract := BitVec.ofNat 1 m.act.val, rflt := m.flt }) ∧
    (∀ n, ∃ m' q', execAll (List.replicate n .step) (State.resetOf c) = .next ⟨c, m', q'⟩ ∧
      m'.act.val = n % 2 ∧ m'.flt = 0) ∧
    (∀ (m : Block c) (f : FaultCode),
      (m.flt = 0 → (raiseFault m f).1.flt = faultCode f) ∧ (m.flt ≠ 0 → (raiseFault m f).1.flt = m.flt))

/-! ### Status registers, faults, responses -/

/-- Rule R24: `ACT` is 0 after reset, RDSTAT answers it, and only the command STEP moves it, to the other
buffer. -/
def Obligations.OnlyStepMovesTheRoleFlag : Prop :=
  ∀ c : Config, (Block.reset c).act = 0 ∧
    (∀ (m : Block c) (q : Issuer c), exec .rdstat ⟨c, m, q⟩ =
      answered m q { ract := BitVec.ofNat 1 m.act.val, rflt := m.flt }) ∧
    (∀ (m m' : Block c) (q q' : Issuer c), step ⟨c, m, q⟩ = .next ⟨c, m', q'⟩ →
      ((∃ cmd rest, q.pending = cmd :: rest ∧ decode cmd = .ok .step) → m'.act.val = 1 - m.act.val) ∧
      ((∀ cmd rest, q.pending = cmd :: rest → decode cmd ≠ .ok .step) → m'.act = m.act))

/-- Rule R28: `FLT` is 0 after reset, RDSTAT answers it; a step that returns a response sets it to the
response's STATUS when it was 0 and keeps it otherwise; it never leaves the legal values 0 to 3. -/
def Obligations.FaultRegisterIsSticky : Prop :=
  ∀ c : Config, (Block.reset c).flt = 0 ∧
    (∀ (m : Block c) (q : Issuer c), exec .rdstat ⟨c, m, q⟩ =
      answered m q { ract := BitVec.ofNat 1 m.act.val, rflt := m.flt }) ∧
    (∀ (m m' : Block c) (q q' : Issuer c) (r : Response c), step ⟨c, m, q⟩ = .next ⟨c, m', q'⟩ →
      q'.responses = q.responses ++ [r] → m'.flt = if m.flt = 0 then r.status else m.flt) ∧
    (∀ (m m' : Block c) (q q' : Issuer c), step ⟨c, m, q⟩ = .next ⟨c, m', q'⟩ → q.pending = [] →
      m'.flt = m.flt) ∧
    (∀ (m m' : Block c) (q q' : Issuer c), step ⟨c, m, q⟩ = .next ⟨c, m', q'⟩ → m.flt.toNat ≤ 3 →
      m'.flt.toNat ≤ 3)

/-- Rules R160, R166: the STATUS a command reports is the one fault the rules give it, the header before
the operand: 1 for a header that is not legal, 2 for an index that names no cell, 3 for a pattern the
table does not have, 0 otherwise; and `FLT` records it if it was 0. -/
def Obligations.StatusIsTheCodeOfTheOnlyFault : Prop :=
  ∀ (c : Config) (m : Block c) (q : Issuer c) (cmd : Command c) (rest : List (Command c)),
    q.pending = cmd :: rest →
    ∃ m' r, step ⟨c, m, q⟩ = answered m' { q with pending := rest } r ∧
      (r.status =
        if cmd.hd.toNat ∉ legalHeaders then 1
        else if readsI (opField cmd.hd) = true ∧ c.N ≤ cmd.args.opi.toNat then 2
        else if opField cmd.hd = 0xE ∧ c.NPAT ≤ cmd.args.opp.toNat then 3
        else 0) ∧
      m'.flt = if m.flt = 0 then r.status else m.flt

/-- Rule R165: a step whose response has a nonzero STATUS has no effect but to record and report that
code, 1 to 3, and the next command is then the next one issued. -/
def Obligations.FaultsHaveNoOtherEffect : Prop :=
  ∀ (c : Config) (m m' : Block c) (q q' : Issuer c) (r : Response c), step ⟨c, m, q⟩ = .next ⟨c, m', q'⟩ →
    q'.responses = q.responses ++ [r] → r.status ≠ 0 →
    r.status.toNat ≤ 3 ∧ step ⟨c, m, q⟩ = faulted m { q with pending := q.pending.tail } r.status

/-- Rule R64: every command that runs returns exactly one response, in which every field its rule does
not write is 0, completed or faulted, and every field is in its range. -/
def Obligations.EveryCommandReturnsOneResponse : Prop :=
  ∀ (c : Config) (m : Block c) (i : Instr), ∃ m' r,
    (∀ q, exec i ⟨c, m, q⟩ = answered m' q r) ∧
    (r.status ≠ 0 → r = { status := r.status }) ∧
    (opcodeOf i ∉ [(0x3 : Nibble), 0x4, 0xC] → r.rv = 0) ∧
    (opcodeOf i ≠ 0x1 → r.ridx = 0) ∧
    (opcodeOf i ≠ 0x2 → r.rx = 0 ∧ r.ry = 0) ∧
    (opcodeOf i ≠ 0xB → r.rs = 0) ∧
    (opcodeOf i ≠ 0xF → r.ract = 0 ∧ r.rflt = 0) ∧
    r.status.toNat ≤ 3 ∧ r.ridx.toNat < c.N ∧ r.rx.toNat < c.W ∧ r.ry.toNat < c.H ∧ r.rs.toNat ≤ 8

/-! ### The step and the run -/

/-- When the next command the host issues decodes to an instruction, a step runs exactly that instruction,
the command issued (rules R3, R66; logs 2 and 3). -/
def Obligations.StepRunsTheDecodedInstruction : Prop :=
  ∀ (c : Config) (m : Block c) (q : Issuer c) (cmd : Command c) (rest : List (Command c)) (i : Instr),
    q.pending = cmd :: rest → decode cmd = .ok i →
    step ⟨c, m, q⟩ = exec i ⟨c, m, { q with pending := rest }⟩

/-- While the host issues nothing the block is idle and holds all its state (rule R176).  That a step with
nothing to issue answers the same state is log 16 (DEDUCED), on the host's list of log 2. -/
def Obligations.IdleBlockHoldsItsState : Prop :=
  ∀ (c : Config) (m : Block c) (q : Issuer c), q.pending = [] → step ⟨c, m, q⟩ = .next ⟨c, m, q⟩

/-- Nothing stops the machine: every step from every state ends in a next state of the same
configuration (rules R29, R165). -/
def Obligations.EveryStepEndsInANextState : Prop :=
  ∀ s : State, ∃ t, step s = .next t ∧ t.cfg = s.cfg

/-- A command acts on the block alone (rules R21, R50): a step performs the first command the host has to
issue, its operands and the block give the block after it and the response, and neither the commands that
follow nor the responses already received play a part; with `bs` behind them the rest is issued as without
(logs 2 and 3). -/
def Obligations.CommandsTakeEffectInOrder : Prop :=
  ∀ (c : Config) (m : Block c) (cmd : Command c),
    (∀ rest rs, step ⟨c, m, ⟨cmd :: rest, rs⟩⟩ =
      .next ⟨c, (perform cmd m).1, ⟨rest, rs ++ [(perform cmd m).2]⟩⟩) ∧
    (∀ (rest bs : List (Command c)) (rs : List (Response c)) (m' : Block c) (q' : Issuer c),
      step ⟨c, m, ⟨cmd :: rest, rs⟩⟩ = .next ⟨c, m', q'⟩ →
      step ⟨c, m, ⟨cmd :: rest ++ bs, rs⟩⟩ = .next ⟨c, m', { q' with pending := rest ++ bs }⟩)

/-- A run of the commands the host has to issue ends, with one response for each, and it is clean exactly
when every response says OK; the run with further commands behind them ends in the same block with those
still to issue (rules R50, R64, R165, R192; logs 2 and 3). -/
def Obligations.RunAnswersEveryCommand : Prop :=
  ∀ (c : Config) (m : Block c) (as : List (Command c)) (rs : List (Response c)), ∃ m' rs',
    (∀ bs, Host.Core.run core as.length (⟨c, m, ⟨as ++ bs, rs⟩⟩ : State) =
      .next (⟨c, m', ⟨bs, rs ++ rs'⟩⟩ : State)) ∧
    rs'.length = as.length ∧ (m.clean → (m'.clean ↔ ∀ r ∈ rs', r.status = 0))

/-- The invariant holds after reset, of any configuration. -/
def Obligations.ResetMeetsTheInvariant : Prop := ∀ c : Config, (State.resetOf c).Inv

/-- From every state that meets the invariant a step gives a state that meets it: buffers in canonical
form, padding 0, a legal fault register (rules R28, R30). -/
def Obligations.EveryStepKeepsTheInvariant : Prop :=
  ∀ s t : State, s.Inv → step s = .next t → t.Inv

/-- Rule R30: padding bits are 0 in both buffers of every block a run from reset reaches, whatever
commands the host issues. -/
def Obligations.PaddingIsAlwaysZero : Prop :=
  ∀ (c : Config) (m : Block c) (q : Issuer c), Reachable c m q →
    ∀ (b : Fin 2) (j : Nat), c.N ≤ j → j < c.NW * c.BPW →
      (wordRead (m.buf b) (j / c.BPW)).getLsbD (j % c.BPW) = false

/-- Rule R36: the live set is the coordinates of the grid whose cell is alive in the active buffer. -/
def Obligations.LiveSetIsTheAliveCoordinates : Prop :=
  ∀ (c : Config) (m : Block c) (x y : Nat),
    (x, y) ∈ liveSet m ↔ x < c.W ∧ y < c.H ∧ getState m m.act (toIndex c x y) = true

/-- A frame, one STEP and then a read of each displayed cell, answers the next generation of the cells
displayed (rules R57, R183). -/
def Obligations.FrameShowsTheNextGeneration : Prop :=
  ∀ (c : Config) (m : Block c) (q : Issuer c) (view : List (Int × Int)), m.Inv → ∃ m' q',
    execAll (frameCommands view) ⟨c, m, q⟩ = .next ⟨c, m', q'⟩ ∧
    q'.responses = q.responses ++ ({} : Response c) :: view.map fun d =>
      { rv := BitVec.ofBool (lifeRule (getState m m.act (toIndex c d.1 d.2)) (countLive m m.act d.1 d.2)) }

/-! ### What cannot be observed -/

/-- Rule R27: only STEP writes the future buffer, and its contents are never observable: two blocks that
differ at most in it answer a step alike and again differ at most in it. -/
def Obligations.FutureBufferIsUnobservable : Prop :=
  (∀ (c : Config) (m m' : Block c) (q q' : Issuer c) (i : Instr), i ≠ .step →
    exec i ⟨c, m, q⟩ = .next ⟨c, m', q'⟩ → m'.buf (otherBuf m'.act) = m.buf (otherBuf m.act)) ∧
  ∀ (c : Config) (m n m' n' : Block c) (q p' q' : Issuer c), m.Inv → n.Inv → SameButFuture m n →
    step ⟨c, m, q⟩ = .next ⟨c, m', q'⟩ → step ⟨c, n, q⟩ = .next ⟨c, n', p'⟩ →
    SameButFuture m' n' ∧ p' = q' ∧ observe n' p' = observe m' q'

/-- No command result depends on the backing word width or on the number of workers (rules R9, R14,
R42): blocks that differ only in those, holding the same cells, answer a step alike and again hold the
same cells. -/
def Obligations.WordWidthAndWorkersAreUnobservable : Prop :=
  ∀ (c : Config) (BPW P : Nat) (hB : 1 ≤ BPW) (hP : 1 ≤ P) (m m' : Block c) (q q' : Issuer c)
    (n n' : Block (c.withLayout BPW P hB hP)) (p' : Issuer (c.withLayout BPW P hB hP)),
    m.Inv → n.Inv → SameCells m n → step ⟨c, m, q⟩ = .next ⟨c, m', q'⟩ →
    step ⟨c.withLayout BPW P hB hP, n, q.atLayout⟩ = .next ⟨_, n', p'⟩ →
    SameCells m' n' ∧ p' = q'.atLayout

/-! ### The worker refinement -/

/-- Rule R127: a STEP done by workers on a partition of rule R185 that conforms to rule R186 gives, under
every schedule that lets all finish and every resolution of races, exactly what the command STEP gives,
and there is no swap before all have finished (rule R174).  The events, schedules and locks of the workers
are log 7 (DESIGN CHOICE). -/
def Obligations.ConformingWorkersRefineStep : Prop :=
  ∀ (c : Config) (d : WriteDiscipline) (ps : Partition) (m : Block c) (es : List (WorkerEvent c)),
    m.Inv → Partition.legal c ps → conforming c d ps →
    ((runSweep d (startSweep m ps) es).finished = false → (runSweep d (startSweep m ps) es).swap = none) ∧
    ((runSweep d (startSweep m ps) es).finished = true →
      ∃ m', (runSweep d (startSweep m ps) es).swap = some m' ∧
        ∀ q, exec .step ⟨c, m, q⟩ = answered m' q {})

/-- Workers never deadlock: whatever has happened, some further events let every worker finish and the swap
take place (rules R174, R185).  The events and locks of the workers are log 7 (DESIGN CHOICE): a lock is
held from the read to the write-back and a waiting worker does not move. -/
def Obligations.WorkersNeverDeadlock : Prop :=
  ∀ (c : Config) (d : WriteDiscipline) (ps : Partition) (m : Block c) (es : List (WorkerEvent c)),
    ∃ es' m', (runSweep d (startSweep m ps) (es ++ es')).swap = some m'

/-- Under a partition that conforms to nothing, a race leaves each cell of the future buffer at its
written value or at its stale one and no other, and never touches padding (rule R186).  The events by
which a worker writes are log 7 (DESIGN CHOICE). -/
def Obligations.RacesLeaveWrittenOrStaleBits : Prop :=
  ∀ (c : Config) (d : WriteDiscipline) (ps : Partition) (m : Block c) (es : List (WorkerEvent c)),
    m.Inv → Partition.legal c ps →
    ∀ j, (j < c.N →
        cellRead (runSweep d (startSweep m ps) es).future j = nextCell m j ∨
        cellRead (runSweep d (startSweep m ps) es).future j = getState m (otherBuf m.act) j) ∧
      (c.N ≤ j → cellRead (runSweep d (startSweep m ps) es).future j = getState m (otherBuf m.act) j)

/-- The shared-word hazard is real: some legal partition that splits a word, with plain writes, loses a
worker's bit under some schedule (rule R186; the events of log 7, DESIGN CHOICE). -/
def Obligations.PlainWritesCanLoseABit : Prop :=
  ∃ (c : Config) (ps : Partition) (m : Block c) (es : List (WorkerEvent c)) (i : Nat),
    m.Inv ∧ Partition.legal c ps ∧ (runSweep .plain (startSweep m ps) es).finished = true ∧
    i < c.N ∧ cellRead (runSweep .plain (startSweep m ps) es).future i ≠ nextCell m i

/-! ### The assembler -/

/-- What the assembler makes of a list of lines decodes to the lines' commands, in order (rules R69,
R70). -/
def Obligations.AssembledLinesDecodeToTheirCommands : Prop :=
  ∀ (c : Config) (ls : List AsmLine) (cmds : List (Command c)), assembleLines c ls = some cmds →
    cmds.map decode = (ls.flatMap (expandLine c)).map .ok

/-- Rule R181: CLEARALL, issued to the block as its assembled commands, kills every cell of the active
buffer and leaves `ACT`, `FLT` and the other buffer as they were. -/
def Obligations.ClearAllKillsEveryCell : Prop :=
  ∀ (c : Config) (m : Block c) (rs : List (Response c)), m.Inv → ∃ cmds m' q',
    assembleLines c [.clearAll] = some cmds ∧
    Host.Core.run core cmds.length (⟨c, m, ⟨cmds, rs⟩⟩ : State) = .next (⟨c, m', q'⟩ : State) ∧
    (∀ i, i < c.N → getState m' m'.act i = false) ∧ m'.act = m.act ∧ m'.flt = m.flt ∧
    m'.buf (otherBuf m.act) = m.buf (otherBuf m.act)

/-- SEEDL with a pattern's offsets leaves the buffers as SEED of that pattern does (rule R70). -/
def Obligations.SeedlWritesWhatSeedWrites : Prop :=
  ∀ (c : Config) (m : Block c) (q : Issuer c) (ax ay : Int) (pid : Nat) (h : pid < c.PAT.length),
    ∃ m' m'' q',
    execAll (expandLine c (.seedL ax ay c.PAT[pid])) ⟨c, m, q⟩ = .next ⟨c, m', q'⟩ ∧
    exec (.seed ax ay pid) ⟨c, m, q⟩ = answered m'' q {} ∧
    (∀ b, m'.buf b = m''.buf b) ∧ m'.act = m''.act ∧ m'.flt = m''.flt
end

