-- ==== Sys2Proof/Laws/Decode.lean ====
section
/-!
SUPPORT. Laws of the decoder and the encoder: the fields of an encoded header, a signed field read back.
-/

namespace Sys2Proof

/-- The V bit of an operation that has none is 0. -/
theorem immediateOf_of_not_usesV {i : Instr} (h : usesV (opcodeOf i) = false) : immediateOf i = false := by
  cases i <;> simp_all [immediateOf, opcodeOf, usesV]

/-- A header built of its three fields reads back. -/
theorem decodeHeader_fields : ∀ (v : Bool) (op : Nibble), (v = true → usesV op = true) →
    decodeHeader ((0 : BitVec 3) ++ (BitVec.ofBool v ++ op)) = .ok (op, v) := by
  decide

/-- The encoded header decodes to the command's operation and immediate. -/
theorem decodeHeader_encodeHeader (i : Instr) :
    decodeHeader (encodeHeader i) = .ok (opcodeOf i, immediateOf i) := by
  refine decodeHeader_fields _ _ fun h => ?_
  by_contra hn
  rw [immediateOf_of_not_usesV (Bool.eq_false_iff.2 hn)] at h
  simp at h

/-- A header the decoder accepts is the three fields it reads. -/
theorem header_of_decodeHeader : ∀ (hd : Header) (op : Nibble) (v : Bool),
    decodeHeader hd = .ok (op, v) →
      hd = (0 : BitVec 3) ++ (BitVec.ofBool v ++ op) ∧ (v = true → usesV op = true) := by
  have key : ∀ hd : Header, ∀ p, decodeHeader hd = .ok p →
      hd = (0 : BitVec 3) ++ (BitVec.ofBool p.2 ++ p.1) ∧ (p.2 = true → usesV p.1 = true) := by
    intro hd p h
    unfold decodeHeader at h
    split at h
    · cases h
    · rename_i hr
      split at h
      · cases h
      · rename_i hv
        cases h
        refine ⟨?_, by simpa using hv⟩
        revert hr; clear hv; revert hd; decide
  exact fun hd op v h => key hd (op, v) h

/-- A coordinate in the field's range is its own residue of the field's width. -/
theorem bmod_of_fits {w : Nat} (hw : 1 ≤ w) {x : Int} (h : fitsSigned w x = true) :
    x.bmod (2 ^ w) = x := by
  have h := of_decide_eq_true h
  obtain ⟨n, rfl⟩ : ∃ n, w = n + 1 := ⟨w - 1, by omega⟩
  have h1 : ((2 ^ (n + 1) : Nat) : Int) = 2 * (2 : Int) ^ n := by push_cast; ring
  simp only [Nat.add_sub_cancel] at h
  apply Int.bmod_eq_of_le <;> rw [h1] <;> omega

/-- A coordinate in the field's range is read back (rule R63). -/
theorem toInt_ofInt_of_fits {w : Nat} (hw : 1 ≤ w) {x : Int} (h : fitsSigned w x = true) :
    (BitVec.ofInt w x).toInt = x := by
  rw [BitVec.toInt_ofInt, bmod_of_fits hw h]

/-- A number in the field's range is read back (rule R63). -/
theorem toNat_ofNat_of_fits {w n : Nat} (h : fitsUnsigned w n = true) : (BitVec.ofNat w n).toNat = n := by
  rw [BitVec.toNat_ofNat, Nat.mod_eq_of_lt (of_decide_eq_true h)]

/-- Every value of a coordinate field is in the field's range. -/
theorem fitsSigned_toInt {w : Nat} (b : BitVec w) : fitsSigned w b.toInt = true := by
  have h1 := BitVec.le_toInt b
  have h2 := BitVec.toInt_lt (x := b)
  exact decide_eq_true ⟨by simpa using h1, by simpa using h2⟩

theorem fitsUnsigned_toNat {w : Nat} (b : BitVec w) : fitsUnsigned w b.toNat = true :=
  decide_eq_true b.isLt

/-- What the decoder accepts is well-formed: every value of every field is accepted (rule R63). -/
theorem wellFormed_instrOf {c : Config} (op : Nibble) (v : Bool) (a : OperandRecord c) :
    (instrOf op v a).wellFormed c = true := by
  unfold instrOf
  split <;> simp [Instr.wellFormed, fitsSigned_toInt, fitsUnsigned_toNat]

/-- The sixteen operation numbers. -/
theorem nibble_cases : ∀ op : Nibble, op = 0 ∨ op = 1 ∨ op = 2 ∨ op = 3 ∨ op = 4 ∨ op = 5 ∨ op = 6 ∨
    op = 7 ∨ op = 8 ∨ op = 9 ∨ op = 10 ∨ op = 11 ∨ op = 12 ∨ op = 13 ∨ op = 14 ∨ op = 15 := by
  decide

/-- The operation of a decoded command is the one its header names. -/
theorem opcodeOf_instrOf {c : Config} (op : Nibble) (v : Bool) (a : OperandRecord c) :
    opcodeOf (instrOf op v a) = op := by
  rcases nibble_cases op with h | h | h | h | h | h | h | h | h | h | h | h | h | h | h | h <;>
    subst h <;> rfl

/-- The immediate of a decoded command is its header's V bit. -/
theorem immediateOf_instrOf {c : Config} (op : Nibble) (v : Bool) (a : OperandRecord c)
    (h : v = true → usesV op = true) : immediateOf (instrOf op v a) = v := by
  cases v
  · rcases nibble_cases op with h | h | h | h | h | h | h | h | h | h | h | h | h | h | h | h <;>
      subst h <;> rfl
  · have h := h rfl
    simp only [usesV, Bool.or_eq_true, beq_iff_eq] at h
    rcases h with (h | h) | h <;> subst h <;> rfl

end Sys2Proof
end

