-- ==== Sys2Proof/Laws/Indexing.lean ====
section
/-!
SUPPORT. Laws of the derived widths, of `wrap` and of the two indexing functions.
-/

namespace Sys2Proof

theorem lt_two_pow_bitlen (v : Nat) : v < 2 ^ bitlen v := by
  unfold bitlen
  split
  · subst_vars; decide
  · exact Nat.lt_log2_self

theorem bitlen_mono_bound {v w : Nat} (h : v ≤ w) : v < 2 ^ bitlen w :=
  lt_of_le_of_lt h (lt_two_pow_bitlen w)

/-- A value up to `n - 1` fits a field of `max 1 (bitlen (n - 1))` bits. -/
theorem lt_two_pow_width {v n : Nat} (h : v < n) : v < 2 ^ max 1 (bitlen (n - 1)) :=
  lt_of_lt_of_le (bitlen_mono_bound (by omega : v ≤ n - 1))
    (Nat.pow_le_pow_right (by decide) (le_max_right _ _))

namespace Config

variable (c : Config)

theorem N_pos : 0 < c.N := Nat.mul_pos c.W_pos c.H_pos

theorem W_pos' : 0 < c.W := c.W_pos

theorem H_pos' : 0 < c.H := c.H_pos

theorem BPW_pos' : 0 < c.BPW := c.BPW_pos

theorem lt_two_pow_IW {i : Nat} (h : i < c.N) : i < 2 ^ c.IW := lt_two_pow_width h

theorem lt_two_pow_XW {x : Nat} (h : x < c.W) : x < 2 ^ c.XW := lt_two_pow_width h

theorem lt_two_pow_YW {y : Nat} (h : y < c.H) : y < 2 ^ c.YW := lt_two_pow_width h

/-- The words hold all cells. -/
theorem N_le_NW_mul : c.N ≤ c.NW * c.BPW := by
  have hB := c.BPW_pos'
  have h := Nat.div_add_mod (c.N + c.BPW - 1) c.BPW
  have h2 := Nat.mod_lt (c.N + c.BPW - 1) hB
  unfold NW
  rw [Nat.mul_comm]
  omega

/-- The owning word of a cell exists. -/
theorem div_BPW_lt_NW {i : Nat} (h : i < c.N) : i / c.BPW < c.NW :=
  (Nat.div_lt_iff_lt_mul c.BPW_pos').2 (lt_of_lt_of_le h c.N_le_NW_mul)

end Config

end Sys2Proof

namespace Sys2Proof.Machine

variable (c : Config)

theorem wrap_lt (v : Int) {n : Nat} (h : 0 < n) : wrap v n < n := by
  have := Int.emod_lt_of_pos v (by omega : (0 : Int) < n)
  have := Int.emod_nonneg v (by omega : (n : Int) ≠ 0)
  unfold wrap
  omega

/-- `wrap` as the integer it is. -/
theorem cast_wrap (v : Int) {n : Nat} (h : 0 < n) : (wrap v n : Int) = v % n :=
  Int.toNat_of_nonneg (Int.emod_nonneg v (by omega))

theorem wrap_congr {u v : Int} {n : Nat} (h : u % n = v % n) : wrap u n = wrap v n := by
  unfold wrap; rw [h]

@[simp] theorem wrap_add_mul (v k : Int) (n : Nat) : wrap (v + k * n) n = wrap v n :=
  wrap_congr (Int.add_mul_emod_self_right v k n)

@[simp] theorem wrap_emod (v : Int) (n : Nat) : wrap (v % n) n = wrap v n :=
  wrap_congr (Int.emod_emod_of_dvd v (dvd_refl _))

/-- A number already in range wraps to itself. -/
theorem wrap_of_lt {v n : Nat} (h : v < n) : wrap (v : Int) n = v := by
  unfold wrap
  rw [Int.emod_eq_of_lt (by omega) (by omega)]
  simp

/-- Reducing first and adding after gives the same cell (rule R81). -/
theorem wrap_wrap_add (v d : Int) {n : Nat} (h : 0 < n) : wrap ((wrap v n : Int) + d) n = wrap (v + d) n := by
  apply wrap_congr
  rw [cast_wrap v h, Int.emod_add_emod]

theorem toIndex_lt (x y : Int) : toIndex c x y < c.N := by
  have hx := wrap_lt x c.W_pos'
  have hy := wrap_lt y c.H_pos'
  unfold toIndex Config.N
  calc wrap y c.H * c.W + wrap x c.W < (wrap y c.H + 1) * c.W := by
        rw [Nat.add_mul]; omega
    _ ≤ c.H * c.W := Nat.mul_le_mul_right _ hy
    _ = c.W * c.H := Nat.mul_comm _ _

theorem toIndex_congr {x y x' y' : Int} (hx : wrap x c.W = wrap x' c.W) (hy : wrap y c.H = wrap y' c.H) :
    toIndex c x y = toIndex c x' y' := by
  unfold toIndex; rw [hx, hy]

/-- The index of a coordinate gives the wrapped coordinate back. -/
theorem fromIndex_toIndex (x y : Int) : fromIndex c (toIndex c x y) = (wrap x c.W, wrap y c.H) := by
  have hx := wrap_lt x c.W_pos'
  unfold fromIndex toIndex
  rw [Nat.mul_comm, Nat.mul_add_mod, Nat.mod_eq_of_lt hx, Nat.mul_add_div c.W_pos', Nat.div_eq_of_lt hx]
  simp

theorem fromIndex_fst_lt (i : Nat) : (fromIndex c i).1 < c.W := Nat.mod_lt _ c.W_pos'

theorem fromIndex_snd_lt {i : Nat} (h : i < c.N) : (fromIndex c i).2 < c.H :=
  Nat.div_lt_of_lt_mul h

/-- The coordinate of an index gives the index back. -/
theorem toIndex_fromIndex {i : Nat} (h : i < c.N) :
    toIndex c (fromIndex c i).1 (fromIndex c i).2 = i := by
  unfold toIndex
  rw [wrap_of_lt (fromIndex_fst_lt c i), wrap_of_lt (fromIndex_snd_lt c h), Nat.mul_comm]
  exact Nat.div_add_mod i c.W

/-- Two coordinates name one cell exactly when they wrap alike. -/
theorem toIndex_eq_iff {x y x' y' : Int} :
    toIndex c x y = toIndex c x' y' ↔ wrap x c.W = wrap x' c.W ∧ wrap y c.H = wrap y' c.H := by
  constructor
  · intro h
    have := congrArg (fromIndex c) h
    simpa [fromIndex_toIndex] using this
  · exact fun h => toIndex_congr c h.1 h.2

/-- The neighbour of a cell's coordinate is the neighbour of any coordinate that names the cell. -/
theorem toIndex_fromIndex_add (x y dx dy : Int) :
    toIndex c ((fromIndex c (toIndex c x y)).1 + dx) ((fromIndex c (toIndex c x y)).2 + dy) =
      toIndex c (x + dx) (y + dy) := by
  rw [fromIndex_toIndex]
  exact toIndex_congr c (wrap_wrap_add x dx c.W_pos') (wrap_wrap_add y dy c.H_pos')

/-- A coordinate wrapped beforehand names the same cell (rule R81). -/
@[simp] theorem toIndex_wrap (x y : Int) : toIndex c (wrap x c.W) (wrap y c.H) = toIndex c x y :=
  toIndex_congr c (wrap_of_lt (wrap_lt x c.W_pos')) (wrap_of_lt (wrap_lt y c.H_pos'))

/-! ### The next and the previous row or column -/

theorem wrap_succ (x : Int) {n : Nat} (h : 0 < n) :
    wrap (x + 1) n = if wrap x n = n - 1 then 0 else wrap x n + 1 := by
  have h3 := wrap_lt x h
  rw [← wrap_wrap_add x 1 h]
  split
  · have : (wrap x n : Int) + 1 = 0 + 1 * n := by omega
    rw [this, wrap_add_mul]
    exact wrap_of_lt (v := 0) h
  · have : (wrap x n : Int) + 1 = ((wrap x n + 1 : Nat) : Int) := by push_cast; rfl
    rw [this]
    exact wrap_of_lt (by omega)

theorem wrap_pred (x : Int) {n : Nat} (h : 0 < n) :
    wrap (x + -1) n = if wrap x n = 0 then n - 1 else wrap x n - 1 := by
  have h3 := wrap_lt x h
  rw [← wrap_wrap_add x (-1) h]
  split
  · rename_i he
    have : ((0 : Nat) : Int) + -1 = ((n - 1 : Nat) : Int) + (-1) * n := by push_cast; omega
    rw [he, this, wrap_add_mul]
    exact wrap_of_lt (by omega)
  · have : (wrap x n : Int) + -1 = ((wrap x n - 1 : Nat) : Int) := by omega
    rw [this]
    exact wrap_of_lt (by omega)

/-! ### Windows of the plane -/

/-- Two coordinates of one window of the grid's length that wrap alike are equal. -/
theorem wrap_inj_window {x x' x0 : Int} {n : Nat} (h1 : x0 ≤ x) (h2 : x < x0 + n) (h3 : x0 ≤ x')
    (h4 : x' < x0 + n) (h : wrap x n = wrap x' n) : x = x' := by
  have h0 : 0 < n := by omega
  have e1 := cast_wrap x h0
  rw [h, cast_wrap x' h0] at e1
  obtain ⟨k, hk⟩ := Int.dvd_of_emod_eq_zero (Int.emod_eq_emod_iff_emod_sub_eq_zero.1 e1)
  have : k = 0 := by
    by_contra hne
    have h5 : (n : Int) ≤ |(n : Int) * k| := by
      rw [abs_mul, Nat.abs_cast]
      have := Int.one_le_abs hne
      nlinarith
    rw [← hk] at h5
    have : |x' - x| < n := by rw [abs_lt]; omega
    omega
  subst this; omega

/-- Every coordinate wraps like one of the window. -/
theorem exists_window (x x0 : Int) {n : Nat} (h : 0 < n) :
    ∃ x', x0 ≤ x' ∧ x' < x0 + n ∧ wrap x' n = wrap x n := by
  have h1 := Int.emod_nonneg (x - x0) (by omega : (n : Int) ≠ 0)
  have h2 := Int.emod_lt_of_pos (x - x0) (by omega : (0 : Int) < n)
  exact ⟨x0 + (x - x0) % n, by omega, by omega, wrap_congr (by simp)⟩

end Sys2Proof.Machine
end

