-- ==== Sys2Proof/Laws/Memory.lean ====
section
/-!
SUPPORT. Laws of a grid buffer: read after write, the frame of a write, the canonical form, equality of
buffers that read alike, and the same for cells through the mask-and-blend.
-/

namespace Sys2Proof.Machine

variable {c : Config}

/-- Word numbers strictly rising: the part of the canonical form that reads and writes rest on. -/
abbrev Memory.rising (m : Memory c) : Prop := m.Pairwise (fun a b => a.1 < b.1)

@[simp] theorem wordRead_nil (k : Nat) : wordRead ([] : Memory c) k = 0 := rfl

/-- A word not listed reads as the unlisted one. -/
theorem wordRead_of_not_mem {m : Memory c} {k : Nat} (h : ∀ e ∈ m, e.1 ≠ k) :
    wordRead m k = unlistedWord c := by
  induction m with
  | nil => rfl
  | cons e m ih =>
    obtain ⟨j, w⟩ := e
    have hj : j ≠ k := h (j, w) (by simp)
    simp only [wordRead, if_neg hj]
    exact ih fun e he => h e (by simp [he])

/-- A listed word reads as listed. -/
theorem wordRead_of_mem {m : Memory c} (hr : m.rising) {k : Nat} {w : BitVec c.BPW} (h : (k, w) ∈ m) :
    wordRead m k = w := by
  induction m with
  | nil => simp at h
  | cons e m ih =>
    obtain ⟨j, u⟩ := e
    rw [Memory.rising, List.pairwise_cons] at hr
    rcases List.mem_cons.1 h with h | h
    · cases h; simp [wordRead]
    · have : j < k := hr.1 _ h
      simp only [wordRead, if_neg (by omega : j ≠ k)]
      exact ih hr.2 h

theorem mem_wordWrite {m : Memory c} {k : Nat} {w : BitVec c.BPW} {e : Nat × BitVec c.BPW}
    (h : e ∈ wordWrite m k w) : e ∈ m ∨ (e = (k, w) ∧ w ≠ unlistedWord c) := by
  induction m with
  | nil =>
    by_cases hw : w = unlistedWord c <;> simp_all [wordWrite]
  | cons f m ih =>
    obtain ⟨j, u⟩ := f
    simp only [wordWrite] at h
    split at h
    · split at h
      · exact .inl h
      · rcases List.mem_cons.1 h with h | h
        · exact .inr ⟨h, ‹_›⟩
        · exact .inl h
    · split at h
      · split at h
        · exact .inl (List.mem_cons_of_mem _ h)
        · rcases List.mem_cons.1 h with h | h
          · exact .inr ⟨h, ‹_›⟩
          · exact .inl (List.mem_cons_of_mem _ h)
      · rcases List.mem_cons.1 h with h | h
        · exact .inl (by simp [h])
        · rcases ih h with h | h
          · exact .inl (List.mem_cons_of_mem _ h)
          · exact .inr h

theorem rising_wordWrite {m : Memory c} (hr : m.rising) (k : Nat) (w : BitVec c.BPW) :
    Memory.rising (wordWrite m k w) := by
  induction m with
  | nil => simp only [wordWrite]; split <;> simp [Memory.rising]
  | cons e m ih =>
    obtain ⟨j, u⟩ := e
    have hr' := List.pairwise_cons.1 hr
    simp only [wordWrite]
    split
    · split
      · exact hr
      · refine List.pairwise_cons.2 ⟨fun e he => ?_, hr⟩
        rcases List.mem_cons.1 he with rfl | he
        · assumption
        · exact lt_trans ‹k < j› (hr'.1 e he)
    · split
      · subst_vars
        split
        · exact hr'.2
        · exact List.pairwise_cons.2 ⟨fun e he => hr'.1 e he, hr'.2⟩
      · refine List.pairwise_cons.2 ⟨fun e he => ?_, ih hr'.2⟩
        rcases mem_wordWrite he with he | ⟨rfl, _⟩
        · exact hr'.1 e he
        · simp only; omega

/-- A write keeps the canonical form. -/
theorem wf_wordWrite {m : Memory c} (h : m.wf) {k : Nat} (hk : k < c.NW) (w : BitVec c.BPW) :
    Memory.wf (wordWrite m k w) := by
  refine ⟨rising_wordWrite h.1 k w, fun e he => ?_⟩
  rcases mem_wordWrite he with he | ⟨rfl, hw⟩
  · exact h.2 e he
  · exact ⟨hk, hw⟩

/-- Read after write, and the frame of a write. -/
theorem wordRead_wordWrite {m : Memory c} (hr : m.rising) (k j : Nat) (w : BitVec c.BPW) :
    wordRead (wordWrite m k w) j = if j = k then w else wordRead m j := by
  induction m with
  | nil =>
    by_cases hw : w = unlistedWord c <;> by_cases hj : k = j <;> by_cases hj' : j = k <;>
      simp_all [wordWrite, wordRead, unlistedWord]
  | cons e m ih =>
    obtain ⟨i, u⟩ := e
    have hr' := List.pairwise_cons.1 hr
    have hnone : ∀ l : Nat, l ≤ i → wordRead m l = unlistedWord c := fun l hl =>
      wordRead_of_not_mem fun e he => by have := hr'.1 e he; omega
    simp only [wordWrite]
    by_cases hki : k < i
    · rw [if_pos hki]
      by_cases hw : w = unlistedWord c
      · rw [if_pos hw]
        by_cases hj : j = k
        · rw [if_pos hj, hw, hj]
          simp only [wordRead, if_neg (by omega : ¬ i = k)]
          exact hnone k (by omega)
        · rw [if_neg hj]
      · simp only [if_neg hw, wordRead, eq_comm]
    · rw [if_neg hki]
      by_cases hke : k = i
      · rw [if_pos hke]
        by_cases hj : j = k
        · rw [if_pos hj]
          by_cases hw : w = unlistedWord c
          · rw [if_pos hw, hw]; exact hnone j (by omega)
          · simp [if_neg hw, wordRead, hj]
        · have hij : ¬ i = j := by omega
          have hkj : ¬ k = j := by omega
          by_cases hw : w = unlistedWord c
          · simp [if_pos hw, wordRead, hj, hij]
          · simp [if_neg hw, wordRead, hj, hij, hkj]
      · rw [if_neg hke]
        by_cases hij : i = j
        · simp [wordRead, hij, show ¬ j = k by omega]
        · simp only [wordRead, if_neg hij]
          exact ih hr'.2

/-- Canonical buffers that read alike are equal. -/
theorem Memory.ext_of_wordRead {m n : Memory c} (hm : m.wf) (hn : n.wf)
    (h : ∀ k, k < c.NW → wordRead m k = wordRead n k) : m = n := by
  have hmem : ∀ {a b : Memory c}, a.wf → b.wf → (∀ k, k < c.NW → wordRead a k = wordRead b k) →
      ∀ e ∈ a, e ∈ b := by
    intro a b ha hb hab e he
    have hk := (ha.2 e he)
    have hr : wordRead b e.1 = e.2 := by
      rw [← hab e.1 hk.1]; exact wordRead_of_mem ha.1 he
    by_contra hne
    by_cases hex : ∃ f ∈ b, f.1 = e.1
    · obtain ⟨f, hf, hfe⟩ := hex
      have := wordRead_of_mem hb.1 (k := f.1) (w := f.2) hf
      apply hne
      have : f = e := Prod.ext hfe (by rw [← hr, ← hfe, this])
      exact this ▸ hf
    · have := wordRead_of_not_mem (m := b) (k := e.1) fun f hf hfe => hex ⟨f, hf, hfe⟩
      exact hk.2 (hr ▸ this)
  have inj : ∀ {a : Memory c}, a.wf → a.Nodup := fun ha =>
    ha.1.imp fun hlt he => by rw [he] at hlt; exact lt_irrefl _ hlt
  have hperm : m.Perm n := by
    rw [List.perm_ext_iff_of_nodup (inj hm) (inj hn)]
    exact fun e => ⟨hmem hm hn h e, hmem hn hm (fun k hk => (h k hk).symm) e⟩
  exact hperm.eq_of_pairwise (fun a b _ _ hab hba => absurd (lt_trans hab hba) (lt_irrefl _)) hm.1 hn.1

/-! ### The mask-and-blend -/

/-- The mask of rule R92 has its own bit and no other. -/
theorem getLsbD_mask {w p q : Nat} (hq : q < w) :
    ((1 : BitVec w) <<< p).getLsbD q = decide (q = p) := by
  rw [BitVec.getLsbD_shiftLeft, show (1 : BitVec w) = BitVec.ofNat w 1 from rfl, BitVec.getLsbD_ofNat]
  rcases lt_trichotomy q p with h | h | h
  · simp [h, h.ne]
  · subst h; simp [hq, show 0 < w by omega]
  · have : Nat.testBit 1 (q - p) = false := by
      rw [← Bool.not_eq_true, Nat.testBit_one_eq_true_iff_self_eq_zero]; omega
    simp [h.ne', this]

/-- `0 − v` is all ones when `v = 1` and all zeros when `v = 0` (rule R92). -/
theorem getLsbD_zero_sub {w q : Nat} (hq : q < w) (v : Bool) :
    ((0 : BitVec w) - BitVec.ofNat w v.toNat).getLsbD q = v := by
  cases v
  · simp
  · have : (0 : BitVec w) - BitVec.ofNat w (true.toNat) = BitVec.allOnes w := by
      simp [BitVec.neg_one_eq_allOnes]
    rw [this]; simp [hq]

/-- The blend sets its own bit and keeps every other one (rule R92). -/
theorem getLsbD_blend (w : BitVec c.BPW) (p : Nat) (v : Bool) {q : Nat} (hq : q < c.BPW) :
    (blend w p v).getLsbD q = if q = p then v else w.getLsbD q := by
  unfold blend
  rw [BitVec.getLsbD_or, BitVec.getLsbD_and, BitVec.getLsbD_and, BitVec.getLsbD_not,
    getLsbD_mask hq, getLsbD_zero_sub hq]
  by_cases h : q = p <;> simp [h, hq]

/-! ### Cells -/

theorem mod_BPW_lt (c : Config) (i : Nat) : i % c.BPW < c.BPW := Nat.mod_lt _ c.BPW_pos'

/-- Two cells are one exactly when they share their word and their bit. -/
theorem cell_eq_iff (c : Config) {i j : Nat} :
    j = i ↔ j / c.BPW = i / c.BPW ∧ j % c.BPW = i % c.BPW := by
  constructor
  · rintro rfl; exact ⟨rfl, rfl⟩
  · rintro ⟨h1, h2⟩
    rw [← Nat.div_add_mod j c.BPW, ← Nat.div_add_mod i c.BPW, h1, h2]

/-- Every bit of a buffer after a cell write (rule R92). -/
theorem wordBit_cellWrite {m : Memory c} (hr : m.rising) (i : Nat) (v : Bool) (k : Nat) {p : Nat}
    (hp : p < c.BPW) :
    (wordRead (cellWrite m i v) k).getLsbD p =
      if k = i / c.BPW ∧ p = i % c.BPW then v else (wordRead m k).getLsbD p := by
  unfold cellWrite
  rw [wordRead_wordWrite hr]
  by_cases hk : k = i / c.BPW
  · rw [if_pos hk, getLsbD_blend _ _ _ hp]
    simp [hk]
  · simp [hk]

/-- Every cell of a buffer after a cell write. -/
theorem cellRead_cellWrite {m : Memory c} (hr : m.rising) (i j : Nat) (v : Bool) :
    cellRead (cellWrite m i v) j = if j = i then v else cellRead m j := by
  unfold cellRead
  rw [wordBit_cellWrite hr i v _ (mod_BPW_lt c j)]
  simp only [cell_eq_iff c (i := i) (j := j)]

theorem rising_cellWrite {m : Memory c} (hr : m.rising) (i : Nat) (v : Bool) :
    Memory.rising (cellWrite m i v) := rising_wordWrite hr _ _

theorem wf_cellWrite {m : Memory c} (h : m.wf) {i : Nat} (hi : i < c.N) (v : Bool) :
    Memory.wf (cellWrite m i v) := wf_wordWrite h (c.div_BPW_lt_NW hi) _

/-- A cell read is a bit of a word, and every bit of a word is a cell read. -/
theorem cellRead_word (m : Memory c) (k : Nat) {p : Nat} (hp : p < c.BPW) :
    cellRead m (k * c.BPW + p) = (wordRead m k).getLsbD p := by
  unfold cellRead
  rw [Nat.mul_comm k, Nat.mul_add_div c.BPW_pos', Nat.mul_add_mod, Nat.div_eq_of_lt hp,
    Nat.mod_eq_of_lt hp, Nat.add_zero]

/-- Canonical buffers with the same cells and the same padding are equal. -/
theorem Memory.ext_of_cellRead {m n : Memory c} (hm : m.wf) (hn : n.wf)
    (h : ∀ j, j < c.NW * c.BPW → cellRead m j = cellRead n j) : m = n := by
  refine Memory.ext_of_wordRead hm hn fun k hk => BitVec.eq_of_getLsbD_eq fun p hp => ?_
  rw [← cellRead_word m k hp, ← cellRead_word n k hp]
  apply h
  calc k * c.BPW + p < (k + 1) * c.BPW := by rw [Nat.add_mul]; omega
    _ ≤ c.NW * c.BPW := Nat.mul_le_mul_right _ hk

end Sys2Proof.Machine
end

