-- ==== Sys2Proof/Laws/State.lean ====
section
/-!
SUPPORT. One lemma per field per update of a block and of the issuer, so that no proof unfolds a record
update.
-/

namespace Sys2Proof.Machine

variable {c : Config}

/-! ### The host receives a response, or has more to issue -/

@[simp] theorem receive_pending (q : Issuer c) (r : Response c) : (q.receive r).pending = q.pending := rfl
@[simp] theorem receive_responses (q : Issuer c) (r : Response c) :
    (q.receive r).responses = q.responses ++ [r] := rfl
@[simp] theorem issue_pending (q : Issuer c) (cs : List (Command c)) :
    (q.issue cs).pending = q.pending ++ cs := rfl
@[simp] theorem issue_responses (q : Issuer c) (cs : List (Command c)) :
    (q.issue cs).responses = q.responses := rfl

/-! ### A command ends -/

theorem finish_eq (m : Block c) (q : Issuer c) (r : Result c) :
    finish ⟨c, m, q⟩ r = .next ⟨c, r.1, q.receive r.2⟩ := rfl

/-! ### A fault raised -/

@[simp] theorem raiseFault_act (m : Block c) (f : FaultCode) : (raiseFault m f).1.act = m.act := rfl
@[simp] theorem raiseFault_flt (m : Block c) (f : FaultCode) :
    (raiseFault m f).1.flt = stickyFlt m.flt (faultCode f) := rfl
@[simp] theorem raiseFault_buf (m : Block c) (f : FaultCode) (b : Fin 2) :
    (raiseFault m f).1.buf b = m.buf b := rfl
@[simp] theorem raiseFault_response (m : Block c) (f : FaultCode) :
    (raiseFault m f).2 = ({ status := faultCode f } : Response c) := rfl

/-! ### A buffer replaced -/

@[simp] theorem setBuf_act (m : Block c) (b : Fin 2) (x : Memory c) : (m.setBuf b x).act = m.act := by
  unfold Block.setBuf; split <;> rfl
@[simp] theorem setBuf_flt (m : Block c) (b : Fin 2) (x : Memory c) : (m.setBuf b x).flt = m.flt := by
  unfold Block.setBuf; split <;> rfl
theorem setBuf_buf (m : Block c) (b b' : Fin 2) (x : Memory c) :
    (m.setBuf b x).buf b' = if b' = b then x else m.buf b' := by
  fin_cases b <;> fin_cases b' <;> rfl
@[simp] theorem setBuf_buf_same (m : Block c) (b : Fin 2) (x : Memory c) :
    (m.setBuf b x).buf b = x := by rw [setBuf_buf, if_pos rfl]
@[simp] theorem setBuf_setBuf (m : Block c) (b : Fin 2) (x y : Memory c) :
    (m.setBuf b x).setBuf b y = m.setBuf b y := by
  fin_cases b <;> rfl
@[simp] theorem setBuf_self (m : Block c) (b : Fin 2) : m.setBuf b (m.buf b) = m := by
  fin_cases b <;> rfl

/-! ### A cell written -/

@[simp] theorem setState_act (m : Block c) (b : Fin 2) (i : Nat) (v : Bool) :
    (setState m b i v).act = m.act := by simp [setState]
@[simp] theorem setState_flt (m : Block c) (b : Fin 2) (i : Nat) (v : Bool) :
    (setState m b i v).flt = m.flt := by simp [setState]
theorem setState_buf (m : Block c) (b b' : Fin 2) (i : Nat) (v : Bool) :
    (setState m b i v).buf b' = if b' = b then cellWrite (m.buf b) i v else m.buf b' :=
  setBuf_buf m b b' _

/-! ### The swap -/

@[simp] theorem swapRoles_act (m : Block c) : (swapRoles m).act = otherBuf m.act := rfl
@[simp] theorem swapRoles_flt (m : Block c) : (swapRoles m).flt = m.flt := rfl
@[simp] theorem swapRoles_buf (m : Block c) (b : Fin 2) : (swapRoles m).buf b = m.buf b := rfl
@[simp] theorem otherBuf_otherBuf (b : Fin 2) : otherBuf (otherBuf b) = b := by fin_cases b <;> rfl
@[simp] theorem otherBuf_ne (b : Fin 2) : otherBuf b ≠ b := by fin_cases b <;> decide
@[simp] theorem ne_otherBuf (b : Fin 2) : b ≠ otherBuf b := by fin_cases b <;> decide
/-- There are two buffers (rule R25). -/
theorem eq_or_eq_otherBuf (a b : Fin 2) : b = a ∨ b = otherBuf a := by
  fin_cases a <;> fin_cases b <;> decide

/-- Blocks with the same buffers and status registers are equal. -/
theorem Block.ext_of_buf {m n : Block c} (hb : ∀ b, m.buf b = n.buf b) (ha : m.act = n.act)
    (hf : m.flt = n.flt) : m = n := by
  have h0 := hb 0
  have h1 := hb 1
  cases m; cases n
  simp_all [Block.buf]

end Sys2Proof.Machine
end

