-- ==== Sys2Proof/Laws/Ops.lean ====
section
/-!
SUPPORT. What each shared operation does to the cells of a block, said once.
-/

namespace Sys2Proof.Machine

variable {c : Config}

/-- Both buffers in canonical form. -/
abbrev Block.canonical (m : Block c) : Prop := ∀ b, (m.buf b).wf

@[simp] theorem getState_raiseFault (m : Block c) (f : FaultCode) (b : Fin 2) (i : Nat) :
    getState (raiseFault m f).1 b i = getState m b i := rfl
@[simp] theorem getState_swapRoles (m : Block c) (b : Fin 2) (i : Nat) :
    getState (swapRoles m) b i = getState m b i := rfl

/-- Read after write, and isolation of every other cell of both buffers (rule R94). -/
theorem getState_setState {m : Block c} {b : Fin 2} (hr : Memory.rising (m.buf b)) (i : Nat) (v : Bool)
    (b' : Fin 2) (j : Nat) :
    getState (setState m b i v) b' j = if b' = b ∧ j = i then v else getState m b' j := by
  unfold getState
  rw [setState_buf]
  by_cases hb : b' = b
  · subst hb; simp [cellRead_cellWrite hr]
  · simp [hb]

theorem canonical_setState {m : Block c} (h : m.canonical) (b : Fin 2) {i : Nat} (hi : i < c.N)
    (v : Bool) : (setState m b i v).canonical := by
  intro b'
  rw [setState_buf]
  split
  · exact wf_cellWrite (h b) hi v
  · exact h b'

/-- The index check has two outcomes. -/
theorem withIndex_of_lt {m : Block c} {i : Nat} (h : i < c.N) (r : Result c) : withIndex m i r = r := by
  simp [withIndex, indexInRange, h]

theorem withIndex_of_le {m : Block c} {i : Nat} (h : c.N ≤ i) (r : Result c) :
    withIndex m i r = raiseFault m .idxRange := by
  simp [withIndex, indexInRange, h.not_gt]

/-! ### Writing several cells of one buffer -/

/-- A list of cell writes to buffer `b`, in order. -/
def writeCells (m : Block c) (b : Fin 2) (ws : List (Nat × Bool)) : Block c :=
  ws.foldl (fun m w => setState m b w.1 w.2) m

@[simp] theorem writeCells_nil (m : Block c) (b : Fin 2) : writeCells m b [] = m := rfl
@[simp] theorem writeCells_cons (m : Block c) (b : Fin 2) (w : Nat × Bool) (ws : List (Nat × Bool)) :
    writeCells m b (w :: ws) = writeCells (setState m b w.1 w.2) b ws := rfl

/-- The writes change one buffer, word by word. -/
theorem writeCells_eq_setBuf (m : Block c) (b : Fin 2) (ws : List (Nat × Bool)) :
    writeCells m b ws = m.setBuf b (ws.foldl (fun f w => cellWrite f w.1 w.2) (m.buf b)) := by
  induction ws generalizing m with
  | nil => simp
  | cons w ws ih => rw [writeCells_cons, ih, setState, setBuf_setBuf, setBuf_buf_same]; rfl

@[simp] theorem writeCells_act (m : Block c) (b : Fin 2) (ws : List (Nat × Bool)) :
    (writeCells m b ws).act = m.act := by
  induction ws generalizing m with
  | nil => rfl
  | cons w ws ih => simp [ih]

@[simp] theorem writeCells_flt (m : Block c) (b : Fin 2) (ws : List (Nat × Bool)) :
    (writeCells m b ws).flt = m.flt := by
  induction ws generalizing m with
  | nil => rfl
  | cons w ws ih => simp [ih]

/-- The other buffer is untouched. -/
theorem writeCells_buf_of_ne (m : Block c) {b b' : Fin 2} (h : b' ≠ b) (ws : List (Nat × Bool)) :
    (writeCells m b ws).buf b' = m.buf b' := by
  induction ws generalizing m with
  | nil => rfl
  | cons w ws ih => rw [writeCells_cons, ih, setState_buf, if_neg h]

theorem rising_writeCells {m : Block c} {b : Fin 2} (hr : Memory.rising (m.buf b)) (ws : List (Nat × Bool)) :
    Memory.rising ((writeCells m b ws).buf b) := by
  induction ws generalizing m with
  | nil => exact hr
  | cons w ws ih =>
    refine ih ?_
    rw [setState_buf, if_pos rfl]
    exact rising_cellWrite hr _ _

theorem wf_writeCells {m : Block c} {b : Fin 2} (h : (m.buf b).wf) {ws : List (Nat × Bool)}
    (hw : ∀ w ∈ ws, w.1 < c.N) : ((writeCells m b ws).buf b).wf := by
  induction ws generalizing m with
  | nil => exact h
  | cons w ws ih =>
    refine ih ?_ fun w hw' => hw w (List.mem_cons_of_mem _ hw')
    rw [setState_buf, if_pos rfl]
    exact wf_cellWrite h (hw w (by simp)) _

/-- A cell no write names is as before. -/
theorem getState_writeCells_of_not_mem {m : Block c} {b : Fin 2} (hr : Memory.rising (m.buf b))
    {ws : List (Nat × Bool)} {j : Nat} (hj : ∀ w ∈ ws, w.1 ≠ j) :
    getState (writeCells m b ws) b j = getState m b j := by
  induction ws generalizing m with
  | nil => rfl
  | cons w ws ih =>
    rw [writeCells_cons, ih, getState_setState hr, if_neg]
    · exact fun h => hj w (by simp) h.2.symm
    · rw [setState_buf, if_pos rfl]; exact rising_cellWrite hr _ _
    · exact fun w hw => hj w (List.mem_cons_of_mem _ hw)

/-- A cell that some write names, with every write of it writing `v`, reads `v`. -/
theorem getState_writeCells_of_mem {m : Block c} {b : Fin 2} (hr : Memory.rising (m.buf b))
    {ws : List (Nat × Bool)} {j : Nat} {v : Bool} (hj : (j, v) ∈ ws) (hv : ∀ w ∈ ws, w.1 = j → w.2 = v) :
    getState (writeCells m b ws) b j = v := by
  induction ws generalizing m with
  | nil => simp at hj
  | cons w ws ih =>
    have hr' : Memory.rising ((setState m b w.1 w.2).buf b) := by
      rw [setState_buf, if_pos rfl]; exact rising_cellWrite hr _ _
    have hv' : ∀ w ∈ ws, w.1 = j → w.2 = v := fun w hw => hv w (List.mem_cons_of_mem _ hw)
    rw [writeCells_cons]
    by_cases hmem : (j, v) ∈ ws
    · exact ih hr' hmem hv'
    · have hw : w = (j, v) := by simpa [hmem, eq_comm] using hj
      rw [getState_writeCells_of_not_mem hr', getState_setState hr, hw, if_pos ⟨rfl, rfl⟩]
      exact fun u hu hju => hmem (by rw [← hju, ← hv' u hu hju]; exact hu)

/-- The last write of a cell wins (rule R94). -/
theorem setState_setState {m : Block c} (hm : m.canonical) (b : Fin 2) {i : Nat} (hi : i < c.N) (v w : Bool) :
    setState (setState m b i v) b i w = setState m b i w := by
  have h1 := canonical_setState hm b hi v
  refine Block.ext_of_buf (fun b' => ?_) (by simp) (by simp)
  refine Memory.ext_of_cellRead (canonical_setState h1 b hi w b') (canonical_setState hm b hi w b') fun j _ => ?_
  have e1 := getState_setState (h1 b).1 i w b' j
  have e2 := getState_setState (hm b).1 i w b' j
  rw [getState_setState (hm b).1] at e1
  refine e1.trans (Eq.trans ?_ e2.symm)
  split <;> rfl

/-- What a list of writes leaves in its buffer depends on that buffer alone. -/
theorem writeCells_buf_congr {m n : Block c} {b b' : Fin 2} (h : m.buf b = n.buf b')
    (ws : List (Nat × Bool)) : (writeCells m b ws).buf b = (writeCells n b' ws).buf b' := by
  induction ws generalizing m n with
  | nil => exact h
  | cons w ws ih =>
    refine ih ?_
    rw [setState_buf, setState_buf, if_pos rfl, if_pos rfl, h]

end Sys2Proof.Machine
end

