-- ==== Sys2Proof/Laws/Stepper.lean ====
section
/-!
SUPPORT. The counter, the generation stepper and the seeder as writes of cells: what each reads and what
each leaves.
-/

namespace Sys2Proof.Machine

variable {c : Config}

/-! ### The counter -/

theorem countLive_congr {m n : Block c} {b b' : Fin 2} (h : ∀ i, i < c.N → getState m b i = getState n b' i)
    (x y : Int) : countLive m b x y = countLive n b' x y := by
  simp only [countLive, mooreOffsets, List.map_cons, List.map_nil, h _ (toIndex_lt c _ _)]

theorem countLive_le (m : Block c) (b : Fin 2) (x y : Int) : countLive m b x y ≤ 8 := by
  have hb : ∀ v : Bool, v.toNat ≤ 1 := by decide
  simp only [countLive, mooreOffsets, List.map_cons, List.map_nil, List.sum_cons, List.sum_nil]
  have := hb (getState m b (toIndex c (x + -1) (y + 0)))
  have := hb (getState m b (toIndex c (x + 1) (y + 0)))
  have := hb (getState m b (toIndex c (x + 0) (y + -1)))
  have := hb (getState m b (toIndex c (x + 0) (y + 1)))
  have := hb (getState m b (toIndex c (x + -1) (y + 1)))
  have := hb (getState m b (toIndex c (x + 1) (y + -1)))
  have := hb (getState m b (toIndex c (x + -1) (y + -1)))
  have := hb (getState m b (toIndex c (x + 1) (y + 1)))
  omega

/-- The count of a cell is the same from every coordinate that names it. -/
theorem countLive_fromIndex (m : Block c) (b : Fin 2) (x y : Int) :
    countLive m b (fromIndex c (toIndex c x y)).1 (fromIndex c (toIndex c x y)).2 = countLive m b x y := by
  simp only [countLive, toIndex_fromIndex_add]

/-! ### The next state of a cell -/

theorem nextCell_congr {m n : Block c} (h : ∀ i, i < c.N → getState m m.act i = getState n n.act i) {i : Nat}
    (hi : i < c.N) : nextCell m i = nextCell n i := by
  simp only [nextCell, h i hi, countLive_congr h]

/-- The next state of the cell a coordinate names (rule R124). -/
theorem nextCell_toIndex (m : Block c) (x y : Int) :
    nextCell m (toIndex c x y) = lifeRule (getState m m.act (toIndex c x y)) (countLive m m.act x y) := by
  simp only [nextCell, countLive_fromIndex]

/-- The rule in the form of rule R120. -/
theorem lifeRule_iff (e : Bool) (n : Nat) : lifeRule e n = true ↔ n = 3 ∨ (e = true ∧ n = 2) := by
  unfold lifeRule
  split
  · simp [*]
  · split <;> simp_all

/-! ### The sweep -/

/-- The sweep is one write of each cell of its order to the future buffer. -/
theorem sweep_eq (m : Block c) (order : List Nat) :
    sweep m order = writeCells m (otherBuf m.act) (order.map fun i => (i, nextCell m i)) := by
  rw [writeCells_eq_setBuf, List.foldl_map]
  rfl

@[simp] theorem sweep_act (m : Block c) (order : List Nat) : (sweep m order).act = m.act := by
  simp [sweep_eq]
@[simp] theorem sweep_flt (m : Block c) (order : List Nat) : (sweep m order).flt = m.flt := by
  simp [sweep_eq]

/-- The active buffer is only read (rule R187). -/
theorem sweep_buf_act (m : Block c) (order : List Nat) : (sweep m order).buf m.act = m.buf m.act := by
  rw [sweep_eq, writeCells_buf_of_ne m (ne_otherBuf m.act)]

theorem getState_sweep {m : Block c} (hr : Memory.rising (m.buf (otherBuf m.act))) (order : List Nat)
    (i : Nat) : getState (sweep m order) (otherBuf m.act) i =
      if i ∈ order then nextCell m i else getState m (otherBuf m.act) i := by
  rw [sweep_eq]
  split
  · refine getState_writeCells_of_mem hr (List.mem_map.2 ⟨i, ‹_›, rfl⟩) fun w hw hwi => ?_
    obtain ⟨j, _, rfl⟩ := List.mem_map.1 hw
    rw [← hwi]
  · refine getState_writeCells_of_not_mem hr fun w hw hwi => ?_
    obtain ⟨j, hj, rfl⟩ := List.mem_map.1 hw
    exact ‹i ∉ order› (hwi ▸ hj)

theorem wf_sweep {m : Block c} (h : (m.buf (otherBuf m.act)).wf) {order : List Nat}
    (ho : ∀ i ∈ order, i < c.N) : ((sweep m order).buf (otherBuf m.act)).wf := by
  rw [sweep_eq]
  refine wf_writeCells h fun w hw => ?_
  obtain ⟨i, hi, rfl⟩ := List.mem_map.1 hw
  exact ho i hi

/-! ### One generation -/

@[simp] theorem stepGeneration_act (m : Block c) : (stepGeneration m).act = otherBuf m.act := by
  simp [stepGeneration]
@[simp] theorem stepGeneration_flt (m : Block c) : (stepGeneration m).flt = m.flt := by
  simp [stepGeneration]

/-- The buffer just read is as it was (rule R126). -/
@[simp] theorem stepGeneration_buf_act (m : Block c) : (stepGeneration m).buf m.act = m.buf m.act := by
  simp [stepGeneration, sweep_buf_act]

/-- Every bit of the buffer just written: a cell is its next state, a padding bit is as it was. -/
theorem getState_stepGeneration {m : Block c} (hr : Memory.rising (m.buf (otherBuf m.act))) (i : Nat) :
    getState (stepGeneration m) (otherBuf m.act) i =
      if i < c.N then nextCell m i else getState m (otherBuf m.act) i := by
  simp [stepGeneration, getState_sweep hr]

theorem wf_stepGeneration {m : Block c} (h : (m.buf (otherBuf m.act)).wf) :
    ((stepGeneration m).buf (otherBuf m.act)).wf :=
  wf_sweep h fun _ hi => List.mem_range.1 hi

/-! ### The seeder -/

/-- The seeder is one write of 1 to each cell the pattern names. -/
theorem seedPattern_eq (m : Block c) (b : Fin 2) (ax ay : Int) (pat : Pattern) :
    seedPattern m b ax ay pat =
      writeCells m b (pat.map fun d => (toIndex c (ax + d.1) (ay + d.2), true)) := by
  unfold seedPattern writeCells
  rw [List.foldl_map]
  rfl

theorem getState_seedPattern {m : Block c} {b : Fin 2} (hr : Memory.rising (m.buf b)) (ax ay : Int)
    (pat : Pattern) (i : Nat) :
    getState (seedPattern m b ax ay pat) b i =
      (getState m b i || pat.any fun d => decide (toIndex c (ax + d.1) (ay + d.2) = i)) := by
  rw [seedPattern_eq]
  by_cases h : ∃ d ∈ pat, toIndex c (ax + d.1) (ay + d.2) = i
  · obtain ⟨d, hd, rfl⟩ := h
    rw [getState_writeCells_of_mem (v := true) hr (List.mem_map.2 ⟨d, hd, rfl⟩)]
    · symm; simp only [Bool.or_eq_true, List.any_eq_true, decide_eq_true_eq]
      exact .inr ⟨d, hd, rfl⟩
    · intro w hw _
      obtain ⟨e, _, rfl⟩ := List.mem_map.1 hw
      rfl
  · rw [getState_writeCells_of_not_mem hr]
    · have : (pat.any fun d => decide (toIndex c (ax + d.1) (ay + d.2) = i)) = false := by
        simpa using fun a b hd he => h ⟨(a, b), hd, he⟩
      rw [this, Bool.or_false]
    · intro w hw hwi
      obtain ⟨d, hd, rfl⟩ := List.mem_map.1 hw
      exact h ⟨d, hd, hwi⟩

end Sys2Proof.Machine
end

