-- ==== Sys2Proof/Laws/Step.lean ====
section
/-!
SUPPORT. Everything a command and a step can do, said once: the inversion lemmas that later proofs cite
instead of unfolding `exec`, `perform` and `step`.
-/

namespace Sys2Proof.Machine

variable {c : Config}

/-- The ways a command can end, from block `m` to its result (rules R3, R165). -/
inductive Effect (i : Instr) (m : Block c) : Result c → Prop
  /-- it reads and answers -/
  | answers (r : Response c) (hr : r.status = 0) (hi : i ≠ .step) : Effect i m (m, r)
  /-- it faults -/
  | faults (f : FaultCode) (hi : i ≠ .step) : Effect i m (raiseFault m f)
  /-- it writes cells of the active buffer -/
  | writes (ws : List (Nat × Bool)) (hw : ∀ w ∈ ws, w.1 < c.N) (hi : i ≠ .step) :
      Effect i m (writeCells m m.act ws, {})
  /-- it advances one generation -/
  | steps (hi : i = .step) : Effect i m (stepGeneration m, {})

/-- An index-addressed command answers or faults as its index says. -/
theorem withIndex_effect {i : Instr} {m : Block c} {r : Result c} {n : Nat} (hi : i ≠ .step)
    (h : n < c.N → Effect i m r) : Effect i m (withIndex m n r) := by
  by_cases hn : n < c.N
  · rw [withIndex_of_lt hn]; exact h hn
  · rw [withIndex_of_le (Nat.le_of_not_lt hn)]; exact .faults _ hi

/-- Every command has one of the four effects. -/
theorem meaning_effect (i : Instr) (m : Block c) : Effect i m (meaning i m) := by
  have write : ∀ (j : Instr) (n : Nat) (v : Bool), j ≠ .step → n < c.N →
      Effect j m (setState m m.act n v, {}) := fun j n v hj hn => .writes [(n, v)] (by simpa using hn) hj
  cases i with
  | nop => exact .answers _ rfl (by simp)
  | toidx x y => exact .answers _ rfl (by simp)
  | fromidx n => exact withIndex_effect (by simp) fun _ => .answers _ rfl (by simp)
  | getXY x y => exact .answers _ rfl (by simp)
  | getI n => exact withIndex_effect (by simp) fun _ => .answers _ rfl (by simp)
  | setaXY x y => exact write _ _ _ (by simp) (toIndex_lt c x y)
  | setdXY x y => exact write _ _ _ (by simp) (toIndex_lt c x y)
  | setsXY x y v => exact write _ _ _ (by simp) (toIndex_lt c x y)
  | setaI n => exact withIndex_effect (by simp) (write _ _ _ (by simp))
  | setdI n => exact withIndex_effect (by simp) (write _ _ _ (by simp))
  | setsI n v => exact withIndex_effect (by simp) (write _ _ _ (by simp))
  | count x y => exact .answers _ rfl (by simp)
  | rule e n => exact .answers _ rfl (by simp)
  | step => exact .steps rfl
  | seed ax ay pid =>
    simp only [meaning, seed]
    split
    · exact .faults _ (by simp)
    · rw [seedPattern_eq]
      refine .writes _ (fun w hw => ?_) (by simp)
      obtain ⟨d, _, rfl⟩ := List.mem_map.1 hw
      exact toIndex_lt c _ _
  | rdstat => exact .answers _ rfl (by simp)

/-- `exec` is the meaning of the command, the response handed to the host. -/
theorem exec_eq (i : Instr) (s : State) : exec i s = finish s (meaning i s.blk) := by cases i <;> rfl

/-- STEP, its result written out. -/
theorem exec_step (m : Block c) (q : Issuer c) :
    exec .step ⟨c, m, q⟩ = .next ⟨c, stepGeneration m, q.receive {}⟩ := rfl

/-- What a command that ended in a next state did. -/
theorem effect_of_exec {i : Instr} {m m' : Block c} {q q' : Issuer c}
    (h : exec i ⟨c, m, q⟩ = .next ⟨c, m', q'⟩) : ∃ r, q' = q.receive r ∧ Effect i m (m', r) := by
  rw [exec_eq] at h
  cases h
  exact ⟨_, rfl, meaning_effect i m⟩

/-! ### The step -/

/-- No command to issue: the block is idle. -/
theorem step_idle {m : Block c} {q : Issuer c} (h : q.pending = []) : step ⟨c, m, q⟩ = .next ⟨c, m, q⟩ := by
  simp [step, Issuer.take, h]

/-- The block performs the next command. -/
theorem step_perform {m : Block c} {q : Issuer c} {cmd : Command c} {rest : List (Command c)}
    (h : q.pending = cmd :: rest) :
    step ⟨c, m, q⟩ = finish ⟨c, m, { q with pending := rest }⟩ (perform cmd m) := by
  simp only [step, Issuer.take, h, perform]
  match decode cmd with
  | .error e => rfl
  | .ok i => exact exec_eq i _

/-- A header the decoder refuses. -/
theorem perform_illegal {m : Block c} {cmd : Command c} {e : Reject} (hd : decode cmd = .error e) :
    perform cmd m = raiseFault m .illegalCmd := by simp [perform, hd]

/-- A header the decoder accepts: the decoded command's meaning. -/
theorem perform_decoded {m : Block c} {cmd : Command c} {i : Instr} (hd : decode cmd = .ok i) :
    perform cmd m = meaning i m := by simp [perform, hd]

/-- A step runs the decoded command. -/
theorem step_decoded {m : Block c} {q : Issuer c} {cmd : Command c} {rest : List (Command c)} {i : Instr}
    (h : q.pending = cmd :: rest) (hd : decode cmd = .ok i) :
    step ⟨c, m, q⟩ = exec i ⟨c, m, { q with pending := rest }⟩ := by
  rw [step_perform h, perform_decoded hd, exec_eq]

/-- Everything a step can do. -/
inductive StepTo (m : Block c) (q : Issuer c) : Block c → Issuer c → Prop
  | idle (h : q.pending = []) : StepTo m q m q
  | illegal (cmd : Command c) (rest : List (Command c)) (e : Reject) (h : q.pending = cmd :: rest)
      (hd : decode cmd = .error e) :
      StepTo m q (raiseFault m .illegalCmd).1
        (({ q with pending := rest } : Issuer c).receive { status := 1 })
  | runs (cmd : Command c) (rest : List (Command c)) (i : Instr) (m' : Block c) (r : Response c)
      (h : q.pending = cmd :: rest) (hd : decode cmd = .ok i) (heff : Effect i m (m', r)) :
      StepTo m q m' (({ q with pending := rest } : Issuer c).receive r)

/-- Every step ends in a next state of the same configuration. -/
theorem step_to (m : Block c) (q : Issuer c) : ∃ m' q', step ⟨c, m, q⟩ = .next ⟨c, m', q'⟩ ∧ StepTo m q m' q' := by
  match hp : q.pending with
  | [] => exact ⟨m, q, step_idle hp, .idle hp⟩
  | cmd :: rest =>
    refine ⟨_, _, step_perform hp, ?_⟩
    match hd : decode cmd with
    | .error e => rw [perform_illegal hd]; exact .illegal cmd rest e hp hd
    | .ok i => rw [perform_decoded hd]; exact .runs cmd rest i _ _ hp hd (meaning_effect i m)

theorem stepTo_of_step {m m' : Block c} {q q' : Issuer c} (h : step ⟨c, m, q⟩ = .next ⟨c, m', q'⟩) :
    StepTo m q m' q' := by
  obtain ⟨n, p, hn, ht⟩ := step_to m q
  rw [hn] at h
  cases h
  exact ht

/-! ### What every command does, whichever it is -/

/-- `FLT` takes the status of the response if it was 0. -/
theorem effect_flt {i : Instr} {m : Block c} {r : Result c} (h : Effect i m r) :
    r.1.flt = stickyFlt m.flt r.2.status := by
  have h0 : ∀ f : Nibble, stickyFlt f 0 = f := by decide
  cases h with
  | answers r hr hi => rw [hr, h0]
  | faults f hi => rfl
  | writes ws hw hi => rw [h0]; simp
  | steps hi => rw [h0]; simp

/-- Only STEP moves the role flag (rule R24). -/
theorem effect_act {i : Instr} {m : Block c} {r : Result c} (h : Effect i m r) :
    r.1.act = if i = .step then otherBuf m.act else m.act := by
  cases h with
  | answers r hr hi => simp [hi]
  | faults f hi => simp [hi]
  | writes ws hw hi => simp [hi]
  | steps hi => simp [hi]

end Sys2Proof.Machine
end

