-- ==== Sys2Proof/Laws/Invariant.lean ====
section
/-!
SUPPORT. The invariant through the shared operations: what each effect of a command keeps of it.
-/

namespace Sys2Proof.Machine

variable {c : Config}

theorem Block.Inv.canonical {m : Block c} (h : m.Inv) : m.canonical := fun b => by
  fin_cases b
  · exact h.wf0
  · exact h.wf1

theorem Block.Inv.padded {m : Block c} (h : m.Inv) (b : Fin 2) : (m.buf b).padded := by
  fin_cases b
  · exact h.padded0
  · exact h.padded1

theorem Block.Inv.rising {m : Block c} (h : m.Inv) (b : Fin 2) : Memory.rising (m.buf b) :=
  (h.canonical b).1

/-- The invariant, buffer by buffer. -/
theorem Block.Inv.of_buf {m : Block c} (hc : m.canonical) (hp : ∀ b, (m.buf b).padded)
    (hf : m.flt.toNat ≤ 3) : m.Inv :=
  ⟨hc 0, hc 1, hp 0, hp 1, hf⟩

/-- The invariant looks at the buffers and at `FLT` alone. -/
theorem Block.Inv.congr {m n : Block c} (h : m.Inv) (hb : ∀ b, n.buf b = m.buf b) (hf : n.flt = m.flt) :
    n.Inv :=
  .of_buf (fun b => hb b ▸ h.canonical b) (fun b => hb b ▸ h.padded b) (hf ▸ h.flt_legal)

theorem inv_reset (c : Config) : (Block.reset c).Inv :=
  ⟨⟨.nil, by simp [Block.reset]⟩, ⟨.nil, by simp [Block.reset]⟩, fun _ _ _ => by simp [Block.reset, cellRead],
    fun _ _ _ => by simp [Block.reset, cellRead], by simp [Block.reset]⟩

theorem stickyFlt_legal {flt code : Nibble} (hf : flt.toNat ≤ 3) (hc : code.toNat ≤ 3) :
    (stickyFlt flt code).toNat ≤ 3 := by
  unfold stickyFlt; split <;> assumption

theorem faultCode_legal (f : FaultCode) : (faultCode f).toNat ≤ 3 := by cases f <;> decide

theorem inv_raiseFault {m : Block c} (h : m.Inv) (f : FaultCode) : (raiseFault m f).1.Inv :=
  .of_buf (fun b => h.canonical b) (fun b => h.padded b) (stickyFlt_legal h.flt_legal (faultCode_legal f))

/-- A padding bit is not a cell, so no cell write touches it (rule R30). -/
theorem padded_writeCells {m : Block c} {b : Fin 2} (hr : Memory.rising (m.buf b)) (hp : (m.buf b).padded)
    {ws : List (Nat × Bool)} (hw : ∀ w ∈ ws, w.1 < c.N) : ((writeCells m b ws).buf b).padded :=
  fun j hj hlt => (getState_writeCells_of_not_mem hr fun w hw' he => absurd (hw w hw') (by omega)).trans
    (hp j hj hlt)

theorem inv_writeCells {m : Block c} (h : m.Inv) (b : Fin 2) {ws : List (Nat × Bool)}
    (hw : ∀ w ∈ ws, w.1 < c.N) : (writeCells m b ws).Inv := by
  refine .of_buf (fun b' => ?_) (fun b' => ?_) (by simpa using h.flt_legal)
  · by_cases hb : b' = b
    · subst hb; exact wf_writeCells (h.canonical b') hw
    · rw [writeCells_buf_of_ne m hb]; exact h.canonical b'
  · by_cases hb : b' = b
    · subst hb; exact padded_writeCells (h.rising b') (h.padded b') hw
    · rw [writeCells_buf_of_ne m hb]; exact h.padded b'

theorem inv_stepGeneration {m : Block c} (h : m.Inv) : (stepGeneration m).Inv := by
  have : (sweep m (List.range c.N)).Inv := by
    rw [sweep_eq]
    refine inv_writeCells h _ fun w hw => ?_
    obtain ⟨i, hi, rfl⟩ := List.mem_map.1 hw
    exact List.mem_range.1 hi
  exact this.congr (fun _ => rfl) rfl

theorem inv_of_effect {i : Instr} {m : Block c} {r : Result c} (h : m.Inv) (he : Effect i m r) : r.1.Inv := by
  cases he with
  | answers r hr hi => exact h
  | faults f hi => exact inv_raiseFault h f
  | writes ws hw hi => exact inv_writeCells h _ hw
  | steps hi => exact inv_stepGeneration h

theorem inv_of_stepTo {m m' : Block c} {q q' : Issuer c} (h : m.Inv) (ht : StepTo m q m' q') : m'.Inv := by
  cases ht with
  | idle hp => exact h
  | illegal cmd rest e hp hd => exact inv_raiseFault h _
  | runs cmd rest i m' r hp hd heff => exact inv_of_effect h heff

/-- Blocks in canonical form with padding 0 and the same cells have the same buffers. -/
theorem buf_eq_of_cells {m n : Block c} (hm : m.Inv) (hn : n.Inv) {b b' : Fin 2}
    (h : ∀ i, i < c.N → getState m b i = getState n b' i) : m.buf b = n.buf b' := by
  refine Memory.ext_of_cellRead (hm.canonical b) (hn.canonical b') fun j hj => ?_
  by_cases hjn : j < c.N
  · exact h j hjn
  · rw [hm.padded b j (by omega) hj, hn.padded b' j (by omega) hj]

/-- A cell write that completes, bit by bit (rule R92). -/
theorem wroteCell_setState {m : Block c} (hm : m.Inv) (b : Fin 2) (i : Nat) (v : Bool) :
    WroteCell m (setState m b i v) b i v := by
  refine ⟨fun b' k p hp => ?_, by simp, by simp⟩
  unfold wordBit
  rw [setState_buf]
  by_cases hb : b' = b
  · subst hb
    rw [if_pos rfl, wordBit_cellWrite (hm.rising b') i v k hp]
    simp
  · simp [hb]

/-- The cell at a coordinate after a STEP (rules R124, R128). -/
theorem getState_of_step {m m' : Block c} {q q' : Issuer c} (hm : m.Inv)
    (h : exec .step ⟨c, m, q⟩ = .next ⟨c, m', q'⟩) (x y : Int) :
    getState m' m'.act (toIndex c x y) =
      lifeRule (getState m m.act (toIndex c x y)) (countLive m m.act x y) := by
  cases h
  show getState (stepGeneration m) (stepGeneration m).act _ = _
  rw [stepGeneration_act, getState_stepGeneration (hm.rising _), if_pos (toIndex_lt c x y), nextCell_toIndex]

/-- `sext_N` of rule R16 is the two's-complement reading of the decoder. -/
theorem sextValue_eq_toInt {w : Nat} (b : BitVec w) : sextValue b = b.toInt := by
  unfold sextValue
  rw [BitVec.toInt_eq_msb_cond, BitVec.msb_eq_getLsbD_last]
  push_cast; rfl

end Sys2Proof.Machine
end

