-- ==== Sys2Proof/Laws/PerInstr.lean ====
section
/-!
SUPPORT. What holds of every command as syntax, one lemma per constructor.  Family `HeaderLegal`: the
header a command is encoded with is one of the 19 legal ones, and it is decoded to the command's
operation and one-bit immediate (rules R62, R65, R66).
-/

namespace Sys2Proof.Laws.HeaderLegal

/-- The header is legal and decodes to the operation and the immediate. -/
def Statement (i : Instr) : Prop :=
  ((encodeHeader i).toNat ≤ 0x0F ∨ (encodeHeader i).toNat ∈ [0x17, 0x1A, 0x1C]) ∧
    decodeHeader (encodeHeader i) = .ok (opcodeOf i, immediateOf i)

/-- A header of three fields with an allowed immediate is legal. -/
theorem legal_fields : ∀ (v : Bool) (op : Nibble), (v = true → usesV op = true) →
    ((0 : BitVec 3) ++ (BitVec.ofBool v ++ op)).toNat ≤ 0x0F ∨
      ((0 : BitVec 3) ++ (BitVec.ofBool v ++ op)).toNat ∈ [0x17, 0x1A, 0x1C] := by
  decide

/-- A command whose immediate is set only where its operation has one. -/
theorem of_immediate {i : Instr} (h : immediateOf i = true → usesV (opcodeOf i) = true) : Statement i :=
  ⟨legal_fields _ _ h, decodeHeader_fields _ _ h⟩

theorem nop : Statement .nop := of_immediate nofun
theorem toidx (x y : Int) : Statement (.toidx x y) := of_immediate nofun
theorem fromidx (i : Nat) : Statement (.fromidx i) := of_immediate nofun
theorem getXY (x y : Int) : Statement (.getXY x y) := of_immediate nofun
theorem getI (i : Nat) : Statement (.getI i) := of_immediate nofun
theorem setaXY (x y : Int) : Statement (.setaXY x y) := of_immediate nofun
theorem setdXY (x y : Int) : Statement (.setdXY x y) := of_immediate nofun
theorem setsXY (x y : Int) (v : Bool) : Statement (.setsXY x y v) := of_immediate fun _ => rfl
theorem setaI (i : Nat) : Statement (.setaI i) := of_immediate nofun
theorem setdI (i : Nat) : Statement (.setdI i) := of_immediate nofun
theorem setsI (i : Nat) (v : Bool) : Statement (.setsI i v) := of_immediate fun _ => rfl
theorem count (x y : Int) : Statement (.count x y) := of_immediate nofun
theorem rule (e : Bool) (s : Nat) : Statement (.rule e s) := of_immediate fun _ => rfl
theorem step : Statement .step := of_immediate nofun
theorem seed (ax ay : Int) (pid : Nat) : Statement (.seed ax ay pid) := of_immediate nofun
theorem rdstat : Statement .rdstat := of_immediate nofun

end Sys2Proof.Laws.HeaderLegal
end

