-- ==== Sys2Proof/Laws/Port.lean ====
section
/-!
SUPPORT. Runs of the core.
-/

namespace Sys2Proof.Machine

/-- A run of `k + n` steps is a run of `n` after a run of `k`. -/
theorem run_add {k n : Nat} {s t : State} (h : Host.Core.run core k s = .next t) :
    Host.Core.run core (k + n) s = Host.Core.run core n t := by
  induction k generalizing s with
  | zero => cases h; rw [Nat.zero_add]
  | succ k ih =>
    rw [show k + 1 + n = (k + n) + 1 by omega]
    simp only [Host.Core.run] at h ⊢
    match hs : core.step s with
    | .next u =>
      rw [hs] at h
      exact ih h
    | .fault f => rw [hs] at h; cases h
    | .refused r => rw [hs] at h; cases h

/-- A run whose first step is known. -/
theorem run_succ {n : Nat} {s t : State} (h : step s = .next t) :
    Host.Core.run core (n + 1) s = Host.Core.run core n t := by
  have hc : core.step s = .next t := h
  simp only [Host.Core.run, hc]

end Sys2Proof.Machine
end

