-- ==== Sys2Proof/Laws/Workers.lean ====
section
/-!
SUPPORT. The worker refinement of STEP: what one worker event can do, the invariant of a conforming
sweep, the bound on what a race can leave, and the measure that every useful event lowers.
-/

namespace Sys2Proof.Machine

variable {c : Config}

/-! ### What one event can do -/

/-- The outcomes of a worker event (the inversion lemma of `workerEvent`). -/
inductive EventTo (d : WriteDiscipline) (g : Sweep c) (e : WorkerEvent c) : Sweep c → Prop
  /-- the worker does not move -/
  | stays : EventTo d g e g
  /-- it reads the owning word of its next cell -/
  | reads (i : Nat) (rest : List Nat) (hw : g.workers[e.worker]? = some ⟨i :: rest, none⟩)
      (hd : d = .plain ∨ d = .wordLock ∧ wordHeldByOther g e.worker (i / c.BPW) = false) :
      EventTo d g e
        { g with workers := g.workers.set e.worker ⟨i :: rest, some (wordRead g.future (i / c.BPW))⟩ }
  /-- it writes the word back -/
  | writesBack (i : Nat) (rest : List Nat) (h : BitVec c.BPW)
      (hw : g.workers[e.worker]? = some ⟨i :: rest, some h⟩) :
      EventTo d g e
        { g with
          future := wordWrite g.future (i / c.BPW)
            (writeBack (wordRead g.future (i / c.BPW)) h e.stale (i % c.BPW) (nextCell g.start i))
          workers := g.workers.set e.worker ⟨rest, none⟩ }
  /-- it updates the cell's bit atomically -/
  | updates (i : Nat) (rest : List Nat) (hw : g.workers[e.worker]? = some ⟨i :: rest, none⟩)
      (hd : d = .atomicBit) :
      EventTo d g e
        { g with
          future := cellWrite g.future i (nextCell g.start i)
          workers := g.workers.set e.worker ⟨rest, none⟩ }

theorem workerEvent_to (d : WriteDiscipline) (g : Sweep c) (e : WorkerEvent c) :
    EventTo d g e (workerEvent d g e) := by
  unfold workerEvent
  match hw : g.workers[e.worker]? with
  | none => exact .stays
  | some ⟨[], _⟩ => exact .stays
  | some ⟨i :: rest, some h⟩ => exact .writesBack i rest h hw
  | some ⟨i :: rest, none⟩ =>
    cases d with
    | atomicBit => exact .updates i rest hw rfl
    | plain => exact .reads i rest hw (.inl rfl)
    | wordLock =>
      simp only
      split
      · exact .stays
      · exact .reads i rest hw (.inr ⟨rfl, Bool.eq_false_iff.2 ‹_›⟩)

/-- A worker after an update of the worker list. -/
theorem worker_set {ws : List (Worker c)} {p q : Nat} {w u : Worker c} (h : (ws.set p u)[q]? = some w) :
    (q = p ∧ w = u) ∨ (q ≠ p ∧ ws[q]? = some w) := by
  by_cases hq : q = p
  · subst hq
    rw [List.getElem?_set_self'] at h
    cases hw : ws[q]? <;> simp_all
  · rw [List.getElem?_set_ne (Ne.symm hq)] at h
    exact .inr ⟨hq, h⟩

/-- No other worker holds the word. -/
theorem not_heldByOther {g : Sweep c} {p k : Nat} (h : wordHeldByOther g p k = false) {q : Nat} (hq : q ≠ p)
    {j : Nat} {rest : List Nat} {b : BitVec c.BPW} (hw : g.workers[q]? = some ⟨j :: rest, some b⟩) :
    j / c.BPW ≠ k := by
  intro hk
  have : wordHeldByOther g p k = true := by
    unfold wordHeldByOther
    rw [List.any_eq_true]
    refine ⟨(⟨j :: rest, some b⟩, q), ?_, by simp [hq, hk]⟩
    rw [List.mem_zipIdx_iff_getElem?]
    simpa using hw
  rw [h] at this
  cases this

/-! ### A conforming sweep -/

/-- Some worker still has to write cell `i`. -/
def Sweep.toWrite (g : Sweep c) (i : Nat) : Prop :=
  ∃ (p : Nat) (w : Worker c), g.workers[p]? = some w ∧ i ∈ w.todo

/-- The invariant of a conforming sweep that started from block `m`: a cell still to write is as it was
and a written one is its next state, and a held word is the word as it stands. -/
structure Sweep.Good (d : WriteDiscipline) (m : Block c) (g : Sweep c) : Prop where
  start : g.start = m
  wf : g.future.wf
  bound : ∀ {p : Nat} {w : Worker c}, g.workers[p]? = some w → ∀ i ∈ w.todo, i < c.N
  nodup : ∀ {p : Nat} {w : Worker c}, g.workers[p]? = some w → w.todo.Nodup
  disjoint : ∀ {p q : Nat} {w u : Worker c}, g.workers[p]? = some w → g.workers[q]? = some u → p ≠ q →
    ∀ i ∈ w.todo, i ∉ u.todo
  aligned : d = .plain → ∀ {p q : Nat} {w u : Worker c}, g.workers[p]? = some w → g.workers[q]? = some u → p ≠ q →
    ∀ i ∈ w.todo, ∀ j ∈ u.todo, i / c.BPW ≠ j / c.BPW
  cells : ∀ i, i < c.N → (g.toWrite i → cellRead g.future i = getState m (otherBuf m.act) i) ∧
    (¬ g.toWrite i → cellRead g.future i = nextCell m i)
  padding : ∀ i, c.N ≤ i → cellRead g.future i = getState m (otherBuf m.act) i
  held : ∀ {p i : Nat} {rest : List Nat} {h : BitVec c.BPW}, g.workers[p]? = some ⟨i :: rest, some h⟩ → h = wordRead g.future (i / c.BPW)
  exclusive : ∀ {p q i j : Nat} {r s : List Nat} {h k : BitVec c.BPW}, g.workers[p]? = some ⟨i :: r, some h⟩ →
    g.workers[q]? = some ⟨j :: s, some k⟩ → p ≠ q → i / c.BPW ≠ j / c.BPW
  atomic : d = .atomicBit → ∀ {p : Nat} {w : Worker c}, g.workers[p]? = some w → w.held = none

/-- Writing back a word that is as it was read is a cell write, whatever the race bits say. -/
theorem writeBack_self (cur stale : BitVec c.BPW) (p : Nat) (v : Bool) :
    writeBack cur cur stale p v = blend cur p v := by
  have : (cur &&& ~~~stale) ||| (cur &&& stale) = cur := by
    apply BitVec.eq_of_getLsbD_eq
    intro i hi
    simp only [BitVec.getLsbD_or, BitVec.getLsbD_and, BitVec.getLsbD_not, hi, decide_true, Bool.true_and]
    cases cur.getLsbD i <;> cases stale.getLsbD i <;> rfl
  rw [writeBack, this]

/-- A worker of a good sweep writes its next cell: the sweep stays good. -/
theorem Sweep.Good.write {d : WriteDiscipline} {m : Block c} {g : Sweep c} (hg : g.Good d m) {p : Nat}
    {i : Nat} {rest : List Nat} {o : Option (BitVec c.BPW)} (hw : g.workers[p]? = some ⟨i :: rest, o⟩)
    (hx : ∀ {q j : Nat} {s : List Nat} {k : BitVec c.BPW}, q ≠ p → g.workers[q]? = some ⟨j :: s, some k⟩ → i / c.BPW ≠ j / c.BPW) :
    Sweep.Good d m
      { g with
        future := cellWrite g.future i (nextCell g.start i)
        workers := g.workers.set p ⟨rest, none⟩ } := by
  have hi : i < c.N := hg.bound hw i (by simp)
  have hnd := List.nodup_cons.1 (hg.nodup hw)
  have hp : p < g.workers.length := (List.getElem?_eq_some_iff.1 hw).1
  have hto : ∀ j, Sweep.toWrite { g with
        future := cellWrite g.future i (nextCell g.start i)
        workers := g.workers.set p ⟨rest, none⟩ } j ↔ g.toWrite j ∧ j ≠ i := by
    intro j
    constructor
    · rintro ⟨q, w, hq, hj⟩
      rcases worker_set hq with ⟨rfl, rfl⟩ | ⟨hne, hq⟩
      · exact ⟨⟨q, _, hw, List.mem_cons_of_mem _ hj⟩, fun h => hnd.1 (h ▸ hj)⟩
      · exact ⟨⟨q, w, hq, hj⟩, fun h => hg.disjoint hw hq hne.symm i (by simp) (h ▸ hj)⟩
    · rintro ⟨⟨q, w, hq, hj⟩, hne⟩
      by_cases hqp : q = p
      · subst hqp
        rw [hw] at hq
        cases hq
        refine ⟨q, ⟨rest, none⟩, List.getElem?_set_self hp, ?_⟩
        rcases List.mem_cons.1 hj with h | h
        · exact absurd h hne
        · exact h
      · exact ⟨q, w, by simpa [List.getElem?_set_ne (Ne.symm hqp)] using hq, hj⟩
  have hr := hg.wf.1
  constructor
  · exact hg.start
  · exact wf_cellWrite hg.wf hi _
  · intro q w hq j hj
    rcases worker_set hq with ⟨_, rfl⟩ | ⟨_, hq⟩
    · exact hg.bound hw j (List.mem_cons_of_mem _ hj)
    · exact hg.bound hq j hj
  · intro q w hq
    rcases worker_set hq with ⟨_, rfl⟩ | ⟨_, hq⟩
    · exact hnd.2
    · exact hg.nodup hq
  · intro q q' w u hq hq' hne j hj
    rcases worker_set hq with ⟨h1, rfl⟩ | ⟨h1, hq⟩ <;> rcases worker_set hq' with ⟨h2, rfl⟩ | ⟨h2, hq'⟩
    · exact absurd (h1.trans h2.symm) hne
    · exact hg.disjoint hw hq' (h1 ▸ hne) j (List.mem_cons_of_mem _ hj)
    · exact fun h => hg.disjoint hq hw (h2 ▸ hne) j hj (List.mem_cons_of_mem _ h)
    · exact hg.disjoint hq hq' hne j hj
  · intro hd q q' w u hq hq' hne j hj l hl
    rcases worker_set hq with ⟨h1, rfl⟩ | ⟨h1, hq⟩ <;> rcases worker_set hq' with ⟨h2, rfl⟩ | ⟨h2, hq'⟩
    · exact absurd (h1.trans h2.symm) hne
    · exact hg.aligned hd hw hq' (h1 ▸ hne) j (List.mem_cons_of_mem _ hj) l hl
    · exact hg.aligned hd hq hw (h2 ▸ hne) j hj l (List.mem_cons_of_mem _ hl)
    · exact hg.aligned hd hq hq' hne j hj l hl
  · intro j hj
    rw [hto]
    simp only [cellRead_cellWrite hr]
    constructor
    · rintro ⟨ht, hne⟩
      rw [if_neg hne]
      exact (hg.cells j hj).1 ht
    · intro ht
      by_cases hji : j = i
      · rw [if_pos hji, hji, hg.start]
      · rw [if_neg hji]
        exact (hg.cells j hj).2 fun h => ht ⟨h, hji⟩
  · intro j hj
    rw [cellRead_cellWrite hr, if_neg (by omega)]
    exact hg.padding j hj
  · intro q j s k hq
    rcases worker_set hq with ⟨_, h⟩ | ⟨hne, hq⟩
    · simp at h
    · have := hx hne hq
      simp only [cellWrite, wordRead_wordWrite hr]
      rw [if_neg this.symm]
      exact hg.held hq
  · intro q q' j l r s h k hq hq' hne
    rcases worker_set hq with ⟨_, h1⟩ | ⟨_, hq⟩
    · simp at h1
    · rcases worker_set hq' with ⟨_, h2⟩ | ⟨_, hq'⟩
      · simp at h2
      · exact hg.exclusive hq hq' hne
  · intro hd q w hq
    rcases worker_set hq with ⟨_, rfl⟩ | ⟨_, hq⟩
    · rfl
    · exact hg.atomic hd hq

/-- Every event of a conforming sweep keeps it good. -/
theorem Sweep.Good.event {d : WriteDiscipline} {m : Block c} {g : Sweep c} (hg : g.Good d m)
    (e : WorkerEvent c) : (workerEvent d g e).Good d m := by
  have ht := workerEvent_to d g e
  generalize workerEvent d g e = g' at ht
  cases ht with
  | stays => exact hg
  | updates i rest hw hd =>
    exact hg.write hw fun _ hq => absurd (hg.atomic hd hq) (by simp)
  | writesBack i rest h hw =>
    have hh := hg.held hw
    rw [← hh, writeBack_self, hh]
    exact hg.write hw fun hne hq => hg.exclusive hw hq hne.symm
  | reads i rest hw hd =>
    have hto : ∀ j, Sweep.toWrite { g with
          workers := g.workers.set e.worker ⟨i :: rest, some (wordRead g.future (i / c.BPW))⟩ } j ↔
        g.toWrite j := by
      have hp := (List.getElem?_eq_some_iff.1 hw).1
      intro j
      constructor
      · rintro ⟨q, w, hq, hj⟩
        rcases worker_set hq with ⟨rfl, rfl⟩ | ⟨_, hq⟩
        · exact ⟨_, _, hw, hj⟩
        · exact ⟨q, w, hq, hj⟩
      · rintro ⟨q, w, hq, hj⟩
        by_cases hqp : q = e.worker
        · rw [hqp, hw] at hq
          cases hq
          exact ⟨_, _, List.getElem?_set_self hp, hj⟩
        · exact ⟨q, w, by simpa [List.getElem?_set_ne (Ne.symm hqp)] using hq, hj⟩
    have hother : ∀ {q j : Nat} {s : List Nat} {k : BitVec c.BPW}, q ≠ e.worker → g.workers[q]? = some ⟨j :: s, some k⟩ →
        i / c.BPW ≠ j / c.BPW := by
      intro q j s k hne hq
      rcases hd with hd | ⟨_, hl⟩
      · exact hg.aligned hd hw hq hne.symm i (by simp) j (by simp)
      · exact (not_heldByOther hl hne hq).symm
    constructor
    · exact hg.start
    · exact hg.wf
    · intro q w hq j hj
      rcases worker_set hq with ⟨_, rfl⟩ | ⟨_, hq⟩
      · exact hg.bound hw j hj
      · exact hg.bound hq j hj
    · intro q w hq
      rcases worker_set hq with ⟨_, rfl⟩ | ⟨_, hq⟩
      · exact (hg.nodup hw :)
      · exact hg.nodup hq
    · intro q q' w u hq hq' hne j hj
      rcases worker_set hq with ⟨h1, rfl⟩ | ⟨h1, hq⟩ <;> rcases worker_set hq' with ⟨h2, rfl⟩ | ⟨h2, hq'⟩
      · exact absurd (h1.trans h2.symm) hne
      · exact hg.disjoint hw hq' (h1 ▸ hne) j hj
      · exact hg.disjoint hq hw (h2 ▸ hne) j hj
      · exact hg.disjoint hq hq' hne j hj
    · intro hd q q' w u hq hq' hne j hj l hl
      rcases worker_set hq with ⟨h1, rfl⟩ | ⟨h1, hq⟩ <;> rcases worker_set hq' with ⟨h2, rfl⟩ | ⟨h2, hq'⟩
      · exact absurd (h1.trans h2.symm) hne
      · exact hg.aligned hd hw hq' (h1 ▸ hne) j hj l hl
      · exact hg.aligned hd hq hw (h2 ▸ hne) j hj l hl
      · exact hg.aligned hd hq hq' hne j hj l hl
    · intro j hj
      rw [hto]
      exact hg.cells j hj
    · exact hg.padding
    · intro q j s k hq
      rcases worker_set hq with ⟨_, h⟩ | ⟨_, hq⟩
      · simp only [Worker.mk.injEq, List.cons.injEq, Option.some.injEq] at h
        rw [h.2, h.1.1]
      · exact hg.held hq
    · intro q q' j l r s h k hq hq' hne
      rcases worker_set hq with ⟨h1, h⟩ | ⟨h1, hq⟩ <;> rcases worker_set hq' with ⟨h2, h'⟩ | ⟨h2, hq'⟩
      · exact absurd (h1.trans h2.symm) hne
      · simp only [Worker.mk.injEq, List.cons.injEq] at h
        rw [h.1.1]
        exact hother h2 hq'
      · simp only [Worker.mk.injEq, List.cons.injEq] at h'
        rw [h'.1.1]
        exact (hother h1 hq).symm
      · exact hg.exclusive hq hq' hne
    · intro hd' q w hq
      rcases hd with hd | ⟨hd, _⟩ <;> rw [hd] at hd' <;> cases hd'

/-- Every schedule of a conforming sweep keeps it good. -/
theorem Sweep.Good.run {d : WriteDiscipline} {m : Block c} {g : Sweep c} (hg : g.Good d m)
    (es : List (WorkerEvent c)) : (runSweep d g es).Good d m := by
  induction es generalizing g with
  | nil => exact hg
  | cons e es ih => exact ih (hg.event e)

/-! ### The start -/

/-- A worker at the start has exactly its set to write and holds nothing. -/
theorem startSweep_worker {m : Block c} {ps : Partition} {p : Nat} {w : Worker c}
    (h : (startSweep m ps).workers[p]? = some w) : ∃ t, ps[p]? = some t ∧ w = ⟨t, none⟩ := by
  simp only [startSweep, List.getElem?_map, Option.map_eq_some_iff] at h
  obtain ⟨t, ht, rfl⟩ := h
  exact ⟨t, ht, rfl⟩

/-- Two entries of a list that a symmetric relation relates pairwise. -/
theorem pairwise_getElem? {α : Type} {R : α → α → Prop} (hs : ∀ a b, R a b → R b a) {l : List α}
    (h : l.Pairwise R) {p q : Nat} {a b : α} (hp : l[p]? = some a) (hq : l[q]? = some b) (hne : p ≠ q) :
    R a b := by
  obtain ⟨hp', rfl⟩ := List.getElem?_eq_some_iff.1 hp
  obtain ⟨hq', rfl⟩ := List.getElem?_eq_some_iff.1 hq
  rw [List.pairwise_iff_getElem] at h
  rcases lt_or_gt_of_ne hne with hlt | hlt
  · exact h p q hp' hq' hlt
  · exact hs _ _ (h q p hq' hp' hlt)

theorem Partition.legal.mem_iff {ps : Partition} (h : Partition.legal c ps) {i : Nat} :
    (∃ t ∈ ps, i ∈ t) ↔ i < c.N := by
  rw [← List.mem_range, ← h.2.mem_iff, List.mem_flatten]

theorem Partition.legal.nodup {ps : Partition} (h : Partition.legal c ps) :
    (∀ t ∈ ps, t.Nodup) ∧ ps.Pairwise List.Disjoint := by
  have : ps.flatten.Nodup := h.2.nodup_iff.2 List.nodup_range
  exact List.nodup_flatten.1 this

theorem good_startSweep {d : WriteDiscipline} {m : Block c} {ps : Partition} (hl : Partition.legal c ps)
    (hc : conforming c d ps) (hm : (m.buf (otherBuf m.act)).wf) : (startSweep m ps).Good d m := by
  have hnd := hl.nodup
  constructor
  · rfl
  · exact hm
  · intro p w hw i hi
    obtain ⟨t, ht, rfl⟩ := startSweep_worker hw
    exact hl.mem_iff.1 ⟨t, List.mem_of_getElem? ht, hi⟩
  · intro p w hw
    obtain ⟨t, ht, rfl⟩ := startSweep_worker hw
    exact hnd.1 t (List.mem_of_getElem? ht)
  · intro p q w u hw hu hne i hi
    obtain ⟨t, ht, rfl⟩ := startSweep_worker hw
    obtain ⟨s, hs, rfl⟩ := startSweep_worker hu
    exact fun h => (pairwise_getElem? (fun a b hab => hab.symm) hnd.2 ht hs hne) hi h
  · intro hd p q w u hw hu hne
    obtain ⟨t, ht, rfl⟩ := startSweep_worker hw
    obtain ⟨s, hs, rfl⟩ := startSweep_worker hu
    rcases hc with hc | hc | hc
    · exact pairwise_getElem? (fun a b hab i hi j hj => (hab j hj i hi).symm) hc ht hs hne
    · rw [hd] at hc; cases hc
    · rw [hd] at hc; cases hc
  · intro i hi
    refine ⟨fun _ => rfl, fun hn => absurd ?_ hn⟩
    obtain ⟨t, ht, hit⟩ := hl.mem_iff.2 hi
    obtain ⟨p, hp, rfl⟩ := List.getElem_of_mem ht
    exact ⟨p, ⟨ps[p], none⟩, by simp [startSweep, hp], hit⟩
  · exact fun i _ => rfl
  · intro p i rest h hw
    obtain ⟨t, ht, he⟩ := startSweep_worker hw
    simp at he
  · intro p q i j r s h k hw _ _
    obtain ⟨t, ht, he⟩ := startSweep_worker hw
    simp at he
  · intro _ p w hw
    obtain ⟨t, ht, rfl⟩ := startSweep_worker hw
    rfl

/-- A finished sweep has nothing to write. -/
theorem Sweep.not_toWrite_of_finished {g : Sweep c} (h : g.finished = true) (i : Nat) : ¬ g.toWrite i := by
  rintro ⟨p, w, hw, hi⟩
  have := List.all_eq_true.1 h w (List.mem_of_getElem? hw)
  rw [List.isEmpty_iff.1 this] at hi
  simp at hi

/-! ### Any sweep, conforming or not -/

/-- What a race can leave of a bit: the written value or the stale one; padding is never written. -/
def BitOk (m : Block c) (j : Nat) (v : Bool) : Prop :=
  v = getState m (otherBuf m.act) j ∨ (j < c.N ∧ v = nextCell m j)

/-- The invariant of any sweep from block `m`. -/
structure Sweep.Bounded (m : Block c) (g : Sweep c) : Prop where
  start : g.start = m
  rising : Memory.rising g.future
  bound : ∀ {p : Nat} {w : Worker c}, g.workers[p]? = some w → ∀ i ∈ w.todo, i < c.N
  bits : ∀ k p, p < c.BPW → BitOk m (k * c.BPW + p) ((wordRead g.future k).getLsbD p)
  held : ∀ {p i : Nat} {rest : List Nat} {h : BitVec c.BPW}, g.workers[p]? = some ⟨i :: rest, some h⟩ →
    ∀ q, q < c.BPW → BitOk m (i / c.BPW * c.BPW + q) (h.getLsbD q)

theorem Sweep.Bounded.event {d : WriteDiscipline} {m : Block c} {g : Sweep c} (hg : g.Bounded m)
    (e : WorkerEvent c) : (workerEvent d g e).Bounded m := by
  have ht := workerEvent_to d g e
  generalize workerEvent d g e = g' at ht
  have hidx : ∀ i, i / c.BPW * c.BPW + i % c.BPW = i := fun i => by
    rw [Nat.mul_comm]; exact Nat.div_add_mod i c.BPW
  have hboundset : ∀ {p : Nat} {w u : Worker c}, g.workers[e.worker]? = some w → (∀ i ∈ u.todo, i ∈ w.todo) →
      ∀ {v : Worker c}, (g.workers.set e.worker u)[p]? = some v → ∀ i ∈ v.todo, i < c.N := by
    intro p w u hw hsub v hv i hi
    rcases worker_set hv with ⟨_, rfl⟩ | ⟨_, hv⟩
    · exact hg.bound hw i (hsub i hi)
    · exact hg.bound hv i hi
  cases ht with
  | stays => exact hg
  | reads i rest hw hd =>
    refine ⟨hg.start, hg.rising, hboundset (u := ⟨i :: rest, some (wordRead g.future (i / c.BPW))⟩) hw
      (fun _ h => h), hg.bits, ?_⟩
    intro q j s h hq b hb
    rcases worker_set hq with ⟨_, h⟩ | ⟨_, hq⟩
    · simp only [Worker.mk.injEq, List.cons.injEq, Option.some.injEq] at h
      rw [h.2, h.1.1]
      exact hg.bits _ b hb
    · exact hg.held hq b hb
  | writesBack i rest h hw =>
    refine ⟨hg.start, rising_wordWrite hg.rising _ _,
      hboundset hw (fun _ h => List.mem_cons_of_mem _ h), ?_, ?_⟩
    · intro k p hp
      simp only [wordRead_wordWrite hg.rising]
      by_cases hk : k = i / c.BPW
      · rw [if_pos hk, writeBack, getLsbD_blend _ _ _ hp]
        by_cases hpi : p = i % c.BPW
        · rw [if_pos hpi, hk, hpi, hidx]
          exact .inr ⟨hg.bound hw i (by simp), by rw [hg.start]⟩
        · rw [if_neg hpi]
          have h1 := hg.bits k p hp
          have h2 := hk ▸ hg.held hw p hp
          simp only [BitVec.getLsbD_or, BitVec.getLsbD_and, BitVec.getLsbD_not, hp, decide_true,
            Bool.true_and, ← hk]
          cases e.stale.getLsbD p
          · simpa using h1
          · simpa using h2
      · rw [if_neg hk]
        exact hg.bits k p hp
    · intro q j s h hq b hb
      rcases worker_set hq with ⟨_, h⟩ | ⟨_, hq⟩
      · simp at h
      · exact hg.held hq b hb
  | updates i rest hw hd =>
    refine ⟨hg.start, rising_cellWrite hg.rising _ _,
      hboundset hw (fun _ h => List.mem_cons_of_mem _ h), ?_, ?_⟩
    · intro k p hp
      simp only [wordBit_cellWrite hg.rising i _ k hp]
      split
      · rename_i h
        rw [h.1, h.2, hidx]
        exact .inr ⟨hg.bound hw i (by simp), by rw [hg.start]⟩
      · exact hg.bits k p hp
    · intro q j s h hq b hb
      rcases worker_set hq with ⟨_, h⟩ | ⟨_, hq⟩
      · simp at h
      · exact hg.held hq b hb

theorem Sweep.Bounded.run {d : WriteDiscipline} {m : Block c} {g : Sweep c} (hg : g.Bounded m)
    (es : List (WorkerEvent c)) : (runSweep d g es).Bounded m := by
  induction es generalizing g with
  | nil => exact hg
  | cons e es ih => exact ih (hg.event e)

theorem bounded_startSweep {m : Block c} {ps : Partition} (hl : Partition.legal c ps)
    (hm : Memory.rising (m.buf (otherBuf m.act))) : (startSweep m ps).Bounded m := by
  refine ⟨rfl, hm, ?_, fun k p hp => .inl ?_, ?_⟩
  · intro p w hw i hi
    obtain ⟨t, ht, rfl⟩ := startSweep_worker hw
    exact hl.mem_iff.1 ⟨t, List.mem_of_getElem? ht, hi⟩
  · exact (cellRead_word _ k hp).symm
  · intro p i rest h hw
    obtain ⟨t, ht, he⟩ := startSweep_worker hw
    simp at he

/-! ### Progress -/

/-- The events a worker still needs: two for each cell, less one when it has read the word. -/
def Worker.cost (w : Worker c) : Nat := 2 * w.todo.length - (if w.held.isSome then 1 else 0)

/-- The events the workers still need together. -/
def Sweep.cost (g : Sweep c) : Nat := (g.workers.map Worker.cost).sum

theorem sum_set_lt {l : List Nat} {p a b : Nat} (h : l[p]? = some a) (hb : b < a) :
    (l.set p b).sum < l.sum := by
  induction l generalizing p with
  | nil => simp at h
  | cons x l ih =>
    cases p with
    | zero =>
      simp only [List.getElem?_cons_zero, Option.some.injEq] at h
      simp only [List.set_cons_zero, List.sum_cons]
      omega
    | succ p =>
      have := ih (by simpa using h)
      simp only [List.set_cons_succ, List.sum_cons]
      omega

/-- Replacing a worker by a cheaper one lowers the cost. -/
theorem cost_set_lt {g : Sweep c} {p : Nat} {w u : Worker c} (hw : g.workers[p]? = some w)
    (h : u.cost < w.cost) : ((g.workers.set p u).map Worker.cost).sum < g.cost := by
  rw [List.map_set]
  exact sum_set_lt (by simp [hw]) h

end Sys2Proof.Machine
end

