-- ==== Sys2Proof/Tests/Slice0.lean ====
section
/-!
SUPPORT. Tests of the model against the spec's own examples and vectors (95_test_vectors.md, and the
examples of the command rules), and for every statement with hypotheses a witness that meets them.
-/

namespace Sys2Proof.Tests

open Sys2Proof.Machine

/-! ### Small blocks -/

/-- A small grid with the reference widths and pattern table. -/
def grid (W H : Nat) (hW : 1 ≤ W) (hH : 1 ≤ H) : Config :=
  { Config.reference with W := W, H := H, W_pos := hW, H_pos := hH }

def g11 : Config := grid 1 1 (by decide) (by decide)
def g22 : Config := grid 2 2 (by decide) (by decide)
def g33 : Config := grid 3 3 (by decide) (by decide)
def g44 : Config := grid 4 4 (by decide) (by decide)
def g53 : Config := grid 5 3 (by decide) (by decide)
def g55 : Config := grid 5 5 (by decide) (by decide)
def g66 : Config := grid 6 6 (by decide) (by decide)
def g75 : Config := grid 7 5 (by decide) (by decide)

/-- A block after reset with the cells of a list set alive in buffer 0. -/
def alive (c : Config) (cells : List Nat) : Block c :=
  writeCells (Block.reset c) 0 (cells.map fun i => (i, true))

theorem alive_inv (c : Config) (cells : List Nat) (h : ∀ i ∈ cells, i < c.N) : (alive c cells).Inv :=
  inv_writeCells (inv_reset c) 0 fun w hw => by
    obtain ⟨i, hi, rfl⟩ := List.mem_map.1 hw
    exact h i hi

/-- The last response: STATUS, RV, RIDX, RX, RY, RS, RACT, RFLT. -/
def answer (o : Host.Outcome State Fault Refusal) : List Nat :=
  match o with
  | .next t =>
    match t.issuer.responses.getLast? with
    | some r => [r.status.toNat, r.rv.toNat, r.ridx.toNat, r.rx.toNat, r.ry.toNat, r.rs.toNat,
        r.ract.toNat, r.rflt.toNat]
    | none => []
  | .fault _ => []
  | .refused _ => []

/-- The outcome of command `i` on a block after reset with cells set alive. -/
def execOn (c : Config) (cells : List Nat) (i : Instr) : Host.Outcome State Fault Refusal :=
  exec i ⟨c, alive c cells, {}⟩

/-- Words 0 and 1 of `buf[0]`, words 0 and 1 of `buf[1]`, `ACT`, `FLT`. -/
def contents (o : Host.Outcome State Fault Refusal) : List Nat :=
  match o with
  | .next t =>
    [(wordRead t.blk.buf0 0).toNat, (wordRead t.blk.buf0 1).toNat, (wordRead t.blk.buf1 0).toNat,
      (wordRead t.blk.buf1 1).toNat, t.blk.act.val, t.blk.flt.toNat]
  | .fault _ => []
  | .refused _ => []

/-- A host with commands to issue and no response yet. -/
def host {c : Config} (cmds : List (Command c)) : Issuer c := { pending := cmds }

/-- The outcome of a step on block `m` whose host issues the command with header `hd` and operands `a`. -/
def issued {c : Config} (m : Block c) (hd : Header) (a : OperandRecord c) :
    Host.Outcome State Fault Refusal := step ⟨c, m, host [⟨hd, a⟩]⟩

/-! ### Well-formedness: one ill-formed term for each check -/

theorem test_wf_x_high : (Instr.toidx 2147483648 0).wellFormed g53 = false := by decide
theorem test_wf_y_low : (Instr.count 0 (-2147483649)).wellFormed g53 = false := by decide
theorem test_wf_index : (Instr.getI 16).wellFormed g53 = false := by decide
theorem test_wf_count : (Instr.rule true 16).wellFormed g53 = false := by decide
theorem test_wf_pattern : (Instr.seed 0 0 16).wellFormed g53 = false := by decide
theorem test_wf_anchor : (Instr.seed 2147483648 0 0).wellFormed g53 = false := by decide
theorem test_wf_edges : (Instr.seed (-2147483648) 2147483647 15).wellFormed g53 = true ∧
    (Instr.setsI 15 true).wellFormed g53 = true := by decide

/-! ### Decoding: header words written out from rules R62 and R65, RSV V OP -/

theorem test_decode_nop : decodeTableWord 8 0b00000000 = some .nop := by decide
theorem test_decode_toidx : decodeTableWord 8 0b00000001 = some (.toidx 0 0) := by decide
theorem test_decode_fromidx : decodeTableWord 8 0b00000010 = some (.fromidx 0) := by decide
theorem test_decode_getXY : decodeTableWord 8 0b00000011 = some (.getXY 0 0) := by decide
theorem test_decode_getI : decodeTableWord 8 0b00000100 = some (.getI 0) := by decide
theorem test_decode_setaXY : decodeTableWord 8 0b00000101 = some (.setaXY 0 0) := by decide
theorem test_decode_setdXY : decodeTableWord 8 0b00000110 = some (.setdXY 0 0) := by decide
theorem test_decode_setsXY : decodeTableWord 8 0b00000111 = some (.setsXY 0 0 false) ∧
    decodeTableWord 8 0b00010111 = some (.setsXY 0 0 true) := by decide
theorem test_decode_setaI : decodeTableWord 8 0b00001000 = some (.setaI 0) := by decide
theorem test_decode_setdI : decodeTableWord 8 0b00001001 = some (.setdI 0) := by decide
theorem test_decode_setsI : decodeTableWord 8 0b00001010 = some (.setsI 0 false) ∧
    decodeTableWord 8 0b00011010 = some (.setsI 0 true) := by decide
theorem test_decode_count : decodeTableWord 8 0b00001011 = some (.count 0 0) := by decide
theorem test_decode_rule : decodeTableWord 8 0b00001100 = some (.rule false 0) ∧
    decodeTableWord 8 0b00011100 = some (.rule true 0) := by decide
theorem test_decode_step : decodeTableWord 8 0b00001101 = some .step := by decide
theorem test_decode_seed : decodeTableWord 8 0b00001110 = some (.seed 0 0 0) := by decide
theorem test_decode_rdstat : decodeTableWord 8 0b00001111 = some .rdstat := by decide

/-- The operand fields, coordinates read as two's complement (V-IDX and rule R142). -/
theorem test_decode_operands :
    decode (⟨0x01, { opx := 0x7FFFFFFF, opy := 0x80000000 }⟩ : Command g53) =
      .ok (.toidx 2147483647 (-2147483648)) ∧
    decode (⟨0x0E, { opx := 0xFFFFFFFF, opy := 4, opp := 1 }⟩ : Command g53) = .ok (.seed (-1) 4 1) ∧
    decode (⟨0x1A, { opi := 14 }⟩ : Command g53) = .ok (.setsI 14 true) ∧
    decode (⟨0x1C, { ops := 9 }⟩ : Command g53) = .ok (.rule true 9) := by decide

/-- The illegal headers of V-SYS, with the reason. -/
theorem test_decode_rejects :
    [0x10, 0x15, 0x1B, 0x1D, 0x20, 0x24, 0x80, 0xFF].map (fun hd => decodeHeader (BitVec.ofNat 8 hd)) =
      [.error .vBitSet, .error .vBitSet, .error .vBitSet, .error .vBitSet, .error .reservedBits,
        .error .reservedBits, .error .reservedBits, .error .reservedBits] := by decide

theorem test_encode : encode g53 (.toidx (-1) (-3)) = ⟨0x01, { opx := 0xFFFFFFFF, opy := 0xFFFFFFFD }⟩ ∧
    encode g53 (.setsI 6 true) = ⟨0x1A, { opi := 6 }⟩ := by decide

/-! ### Reset and sizes (S10, rule R34) -/

theorem test_reference_sizes : Config.reference.N = 1000000 ∧ Config.reference.NW = 31250 ∧
    Config.reference.PAD = 0 ∧ Config.reference.NPAT = 2 := by decide
theorem test_g75_sizes : g75.N = 35 ∧ g75.NW = 2 ∧ g75.PAD = 29 ∧ g75.IW = 6 := by decide
theorem test_reset : contents (.next State.reset) = [0, 0, 0, 0, 0, 0] := by decide

/-- Whether a step of the reset machine with a table word fetched ends in a next state that holds one
response of STATUS `status`. -/
def runsFromReset (w status : Nat) : Bool :=
  match step (State.reset.withFetchWord 8 w) with
  | .next t => decide (t.issuer.responses.map (·.status.toNat) = [status])
  | .fault _ => false
  | .refused _ => false

theorem test_rows_run_from_reset :
    [0x0, 0x1, 0x2, 0x3, 0x4, 0x5, 0x6, 0x7, 0x8, 0x9, 0xA, 0xB, 0xC, 0xE, 0xF].all
      (runsFromReset · 0) = true := by decide
theorem test_step_row_from_reset :
    (match step (State.reset.withFetchWord 8 0xD) with
      | .next t => decide (t.blk.act = 1)
      | .fault _ => false
      | .refused _ => false) = true := by decide
theorem test_illegal_row_from_reset : runsFromReset 0x1D 1 = true := by decide

/-! ### Indexing (S1, V-IDX) -/

theorem test_toIndex : toIndex g53 (-6) (-4) = 14 ∧ toIndex g53 10 6 = 0 ∧ toIndex g53 7 4 = 7 := by decide
theorem test_toidx : answer (execOn g53 [] (.toidx (-1) (-1))) = [0, 0, 14, 0, 0, 0, 0, 0] := by
  decide
theorem test_toidx_limits :
    answer (exec (.toidx 2147483647 (-2147483648)) State.reset) = [0, 0, 352647, 0, 0, 0, 0, 0] := by decide
theorem test_fromidx : answer (execOn g53 [] (.fromidx 7)) = [0, 0, 0, 2, 1, 0, 0, 0] := by decide
theorem test_fromidx_range :
    answer (execOn g53 [] (.fromidx 15)) = [2, 0, 0, 0, 0, 0, 0, 0] := by decide

/-! ### Storage (V-MEM and the examples of rules R95 to R102) -/

theorem test_getXY : answer (execOn g75 [32, 34] (.getXY (-1) (-1))) = [0, 1, 0, 0, 0, 0, 0, 0] := by
  decide
theorem test_getXY_dead : answer (execOn g75 [32, 34] (.getXY 7 0)) = [0, 0, 0, 0, 0, 0, 0, 0] := by
  decide
theorem test_getI : answer (execOn g75 [32, 34] (.getI 34)) = [0, 1, 0, 0, 0, 0, 0, 0] := by decide
theorem test_getI_range : answer (execOn g53 [14] (.getI 15)) = [2, 0, 0, 0, 0, 0, 0, 0] := by decide
theorem test_setaXY : contents (execOn g75 [31, 32] (.setaXY 6 4)) =
    [0x80000000, 0x5, 0, 0, 0, 0] := by decide
theorem test_setaXY_wrap : contents (execOn g53 [] (.setaXY 5 (-3))) = [1, 0, 0, 0, 0, 0] := by decide
theorem test_setdXY : contents (execOn g53 [0, 1] (.setdXY 1 0)) = [1, 0, 0, 0, 0, 0] := by decide
theorem test_setsXY_one : contents (execOn g53 [] (.setsXY 2 1 true)) = [0x80, 0, 0, 0, 0, 0] := by
  decide
theorem test_setsXY_zero : contents (execOn g75 [0, 32, 34] (.setsXY 0 0 false)) =
    [0, 0x5, 0, 0, 0, 0] := by decide
theorem test_setaI : contents (execOn g75 [] (.setaI 31)) = [0x80000000, 0, 0, 0, 0, 0] := by decide
theorem test_setaI_padding : contents (execOn g75 [32, 34] (.setaI 35)) =
    [0, 0x5, 0, 0, 0, 2] := by decide
theorem test_setdI : contents (execOn g75 [31, 32, 34] (.setdI 31)) = [0, 0x5, 0, 0, 0, 0] := by
  decide
theorem test_setsI_one : contents (execOn g75 [32, 34] (.setsI 0 true)) = [1, 0x5, 0, 0, 0, 0] := by
  decide
theorem test_setsI_zero : contents (execOn g53 [0] (.setsI 0 false)) = [0, 0, 0, 0, 0, 0] := by
  decide

/-! ### Counting (V-CNT) -/

theorem test_count : answer (execOn g53 [0, 1, 14] (.count 0 2)) = [0, 0, 0, 0, 0, 3, 0, 0] := by
  decide
theorem test_count_own_cell : answer (execOn g11 [0] (.count 5 (-5))) = [0, 0, 0, 0, 0, 8, 0, 0] := by
  decide

/-! ### The rule and the stepper (S4, V-RULE, V-STEP) -/

theorem test_rule_table : (List.range 16).map (lifeRule false) =
      [false, false, false, true] ++ List.replicate 12 false ∧
    (List.range 16).map (lifeRule true) = [false, false, true, true] ++ List.replicate 12 false := by decide
theorem test_rule : answer (execOn g53 [] (.rule true 2)) = [0, 1, 0, 0, 0, 0, 0, 0] := by decide
theorem test_step_blinker : contents (execOn g55 [11, 12, 13] .step) =
    [0x3800, 0, 0x21080, 0, 1, 0] := by decide
theorem test_step_small : contents (execOn g22 [0, 1] .step) = [0x3, 0, 0x3, 0, 1, 0] := by decide

/-! ### Seeding and the system commands (V-SEED, V-SYS, P4) -/

theorem test_seed : contents (execOn g66 [] (.seed 4 4 1)) = [0x60000031, 0, 0, 0, 0, 0] := by
  decide
theorem test_seed_range : contents (execOn g53 [6] (.seed 0 0 2)) = [0x40, 0, 0, 0, 0, 3] := by decide
theorem test_nop : answer (issued (alive g53 []) 0x00 {}) = [0, 0, 0, 0, 0, 0, 0, 0] := by decide
theorem test_rdstat : answer (exec .rdstat ⟨g53, swapRoles (raiseFault (alive g53 []) .idxRange).1, {}⟩) =
    [0, 0, 0, 0, 0, 0, 1, 2] := by decide

/-! ### Faults (V-SYS, P4) -/

theorem test_illegal_wins : answer (issued (alive g53 [6]) 0x24 { opi := 15 }) =
    [1, 0, 0, 0, 0, 0, 0, 0] := by decide
theorem test_step_with_v : contents (issued (alive g53 [6]) 0x1D {}) = [0x40, 0, 0, 0, 0, 1] := by decide
theorem test_sticky : contents (issued (raiseFault (alive g53 [6]) .illegalCmd).1 0x0E { opp := 2 }) =
    [0x40, 0, 0, 0, 0, 1] := by decide

/-! ### Construction (rule R161) -/

theorem test_construct : construct 0 3 32 32 1 [] = .fault .configError ∧
    construct 5 (-3) 32 32 1 [] = .fault .configError ∧ construct 5 3 0 32 1 [] = .fault .configError ∧
    construct 5 3 32 1 1 [] = .fault .configError ∧ construct 5 3 32 32 0 [] = .fault .configError ∧
    construct 5 3 32 32 1 [blinker, glider] = .next (State.resetOf g53) :=
  ⟨rfl, rfl, rfl, rfl, rfl, rfl⟩

/-! ### The assembler (rules R69, R70) -/

theorem test_assemble : assembleText g53 "SETS.I 0x6, 1 ; six\n\n  RULE 0,9\nSTEPN 2" =
    some [⟨0x1A, { opi := 6 }⟩, ⟨0x0C, { ops := 9 }⟩, ⟨0x0D, {}⟩, ⟨0x0D, {}⟩] := by decide
/-- The sign as program P2 prints it, and as a keyboard has it. -/
theorem test_assemble_minus : assembleText g53 "GET.XY 0, −1\nGET.XY 0, -1" =
    some [⟨0x03, { opx := 0, opy := 0xFFFFFFFF }⟩, ⟨0x03, { opx := 0, opy := 0xFFFFFFFF }⟩] := by decide
/-- A command a line, whatever a comment holds. -/
theorem test_assemble_comment_paren : assembleText g53 "NOP ; (\nSTEP" = some [⟨0x00, {}⟩, ⟨0x0D, {}⟩] := by
  decide
theorem test_assemble_seedl : assembleText g66 "SEEDL 4, 4, (1,0), (2,1)" =
    some [⟨0x05, { opx := 5, opy := 4 }⟩, ⟨0x05, { opx := 0, opy := 5 }⟩] := by decide
theorem test_assemble_refuses : assembleText g53 "GET.I 16" = none ∧
    assembleText g53 "SETS.I 0, 2" = none ∧ assembleText g53 "TOIDX 2147483648, 0" = none := by decide

/-! ### The workers and a render port (rules R174, R189) -/

/-- Three cells in two words of two bits, and two workers. -/
def g13 : Config :=
  { W := 1, H := 3, BPW := 2, CW := 32, P := 2, PAT := []
    W_pos := by decide, H_pos := by decide, BPW_pos := by decide, CW_two := by decide, P_pos := by decide }

/-- No swap while a worker has a cell to write. -/
theorem test_no_swap_before_all_finish :
    (runSweep .atomicBit (startSweep (alive g13 [1]) [[0, 2], [1]]) [⟨0, 0⟩, ⟨0, 0⟩]).swap = none ∧
    (runSweep .atomicBit (startSweep (alive g13 [1]) [[0, 2], [1]]) [⟨0, 0⟩, ⟨0, 0⟩, ⟨1, 0⟩]).swap.isSome =
      true := by decide

theorem test_render : renderRead none (alive g53 [14]) (-1) (-1) = some true ∧
    renderRead (some (startSweep (alive g53 [14]) [])) (alive g53 [14]) (-1) (-1) = none := by decide

/-! ### Witnesses: concrete states and operands that meet the hypotheses of each statement -/

/-- Legal parameters at the least values, and each premise broken by one. -/
theorem witness_ConstructionResetsOrRejects :
    (1 ≤ (1 : Int) ∧ 1 ≤ (1 : Int) ∧ 1 ≤ (1 : Int) ∧ 2 ≤ (2 : Int) ∧ 1 ≤ (1 : Int)) ∧
    ([(0, 1, 1, 2, 1), (1, 0, 1, 2, 1), (1, 1, 0, 2, 1), (1, 1, 1, 1, 1), (1, 1, 1, 2, 0)] :
      List (Int × Int × Int × Int × Int)).all
      (fun q => decide (¬ (1 ≤ q.1 ∧ 1 ≤ q.2.1 ∧ 1 ≤ q.2.2.1 ∧ 2 ≤ q.2.2.2.1 ∧ 1 ≤ q.2.2.2.2))) = true := by
  decide

/-- The last legal header, and one illegal header of each kind with its command issued. -/
theorem witness_IllegalHeadersFault : (0x1C : Header).toNat ∈ legalHeaders ∧
    (0x1D : Header).toNat ∉ legalHeaders ∧ (0x20 : Header).toNat ∉ legalHeaders ∧
    (host (c := g53) [⟨0x1D, {}⟩, ⟨0x20, {}⟩]).pending = ⟨0x1D, {}⟩ :: [⟨0x20, {}⟩] := by decide

/-- Every operand field at an end of its range. -/
theorem witness_DecodeOfEncodeIsTheCommand :
    [Instr.toidx (-2147483648) 2147483647, .fromidx 15, .getXY 2147483647 0, .getI 0, .setaXY 0 (-2147483648),
      .setdXY 0 0, .setsXY 0 0 true, .setaI 15, .setdI 15, .setsI 15 false, .count (-1) (-1), .rule true 15,
      .seed 2147483647 (-2147483648) 15, .nop, .step, .rdstat].all (·.wellFormed g53) = true := by decide

theorem witness_EncodeOfDecodeKeepsTheHeader :
    decode (⟨0x1A, { opx := 7, opi := 15 }⟩ : Command g53) = .ok (.setsI 15 true) := by decide

/-- Two records that differ in every field the header 0x04 does not read. -/
theorem witness_UnusedOperandFieldsAreIgnored :
    let a : OperandRecord g53 := { opi := 15 }
    let a' : OperandRecord g53 := { opx := 1, opy := 2, opi := 15, ops := 3, opp := 4 }
    (readsXY (opField 0x04) = true → a.opx = a'.opx ∧ a.opy = a'.opy) ∧
    (readsI (opField 0x04) = true → a.opi = a'.opi) ∧ (opField 0x04 = 0xC → a.ops = a'.ops) ∧
    (opField 0x04 = 0xE → a.opp = a'.opp) := by decide

/-- The last index of a cell and the first that names none, and the last pattern and the first that is
none, for IndexingFunctionsAreInverse,
FromidxAnswersTheCoordinate, OnlyBadIndicesFaultIdxRange and GetAnswersTheActiveCell. -/
theorem witness_IndexBounds : 14 < g53.N ∧ g53.N ≤ 15 ∧ 0 < g11.N ∧ g11.N ≤ 1 ∧
    (Instr.fromidx 15).wellFormed g53 = true ∧ (Instr.fromidx 1).wellFormed g11 = true ∧
    1 < g53.NPAT ∧ ¬ 2 < g53.NPAT := by decide

theorem witness_CellIsABitOfItsWord : 34 < g75.N ∧ getState (alive g75 [34]) 0 34 = true := by decide

/-- Buffers in canonical form, the last cell, its neighbour cell, and the first and last padding bits. -/
theorem witness_CellWritesAreIsolated : (alive g75 [31, 34]).buf0.wf ∧ (alive g75 [31, 34]).buf1.wf ∧
    34 < g75.N ∧ 33 < g75.N ∧ 33 ≠ 34 ∧ g75.N ≤ 35 ∧ 35 < g75.NW * g75.BPW ∧ 63 < g75.NW * g75.BPW := by
  decide

/-- For the statements that ask for the invariant alone: SetByCoordinateWritesOneCell,
StepAdvancesOneGeneration, FrameShowsTheNextGeneration, ClearAllKillsEveryCell. -/
theorem witness_Inv : (alive g75 [31, 34]).Inv := alive_inv _ _ (by decide)

theorem witness_SetByIndexWritesOneCell : (alive g75 [31, 34]).Inv ∧ 34 < g75.N ∧ g75.N ≤ 35 :=
  ⟨witness_Inv, by decide, by decide⟩

theorem witness_ReadingCommandsChangeNoCell :
    (Instr.getI 14).seeds = false ∧ Instr.getI 14 ≠ .step ∧
    (∃ m' q', exec (.getI 14) ⟨g53, alive g53 [14], {}⟩ = .next ⟨g53, m', q'⟩) ∧
    ∀ n, Instr.getI 14 = .fromidx n ∨ Instr.getI 14 = .getI n → n < g53.N :=
  ⟨rfl, by decide, ⟨_, _, rfl⟩, fun n h => by
    rcases h with h | h
    · cases h
    · cases h; decide⟩

/-- Grids of each size the clauses name. -/
theorem witness_CoincidingNeighboursCountEachTime : 3 ≤ g33.W ∧ 3 ≤ g33.H ∧ g11.W = 1 ∧ g11.H = 1 ∧
    g22.W = 2 ∧ g22.H = 2 := by decide

theorem witness_StepIsIndependentOfOrder : (alive g53 [0, 14]).buf0.wf ∧ (alive g53 [0, 14]).buf1.wf ∧
    ((List.range g53.N).reverse).Perm (List.range g53.N) := ⟨by decide, by decide, List.reverse_perm _⟩

/-- A dead grid, and fully alive ones down to one cell. -/
theorem witness_DeadGridStaysDeadAndFullGridDies :
    (Block.reset g53).Inv ∧ (∀ i, i < g53.N → getState (Block.reset g53) 0 i = false) ∧
    (alive g33 (List.range 9)).Inv ∧ (∀ i, i < g33.N → getState (alive g33 (List.range 9)) 0 i = true) ∧
    (alive g11 [0]).Inv ∧ (∀ i, i < g11.N → getState (alive g11 [0]) 0 i = true) :=
  ⟨inv_reset _, by decide, alive_inv _ _ (by decide), by decide, alive_inv _ _ (by decide), by decide⟩

/-- One live cell, and the same cell moved by `(1, 1)`. -/
theorem witness_StepCommutesWithTorusShifts :
    (alive g53 [0]).Inv ∧ (alive g53 [6]).Inv ∧
    (∀ x y : Int, getState (alive g53 [6]) 0 (toIndex g53 (x + 1) (y + 1)) =
      getState (alive g53 [0]) 0 (toIndex g53 x y)) ∧
    (∃ m' q', exec .step ⟨g53, alive g53 [0], {}⟩ = .next ⟨g53, m', q'⟩) ∧
    ∃ n' p', exec .step ⟨g53, alive g53 [6], {}⟩ = .next ⟨g53, n', p'⟩ := by
  refine ⟨alive_inv _ _ (by decide), alive_inv _ _ (by decide), fun x y => ?_, ⟨_, _, rfl⟩, ⟨_, _, rfl⟩⟩
  have h : ∀ i, i < g53.N → getState (alive g53 [6]) 0
      (toIndex g53 ((fromIndex g53 i).1 + 1) ((fromIndex g53 i).2 + 1)) = getState (alive g53 [0]) 0 i := by
    decide
  have := h _ (toIndex_lt g53 x y)
  rwa [toIndex_fromIndex_add] at this

/-- A line of three in the middle of a 5×5 window, one cell from both its edges. -/
theorem witness_StepIsPlaneLifeInsideAWindow :
    let live : Int → Int → Bool := fun x y => decide (1 ≤ x ∧ x ≤ 3 ∧ y = 2)
    (alive g55 [11, 12, 13]).Inv ∧
    (∀ x y, live x y = true → 0 + 1 ≤ x ∧ x + 1 < 0 + g55.W ∧ 0 + 1 ≤ y ∧ y + 1 < 0 + g55.H) ∧
    Shows (alive g55 [11, 12, 13]) live 0 0 ∧
    ∃ m' q', exec .step ⟨g55, alive g55 [11, 12, 13], {}⟩ = .next ⟨g55, m', q'⟩ := by
  refine ⟨alive_inv _ _ (by decide), fun x y h => ?_, fun x y hx hx' hy hy' => ?_, ⟨_, _, rfl⟩⟩
  · have := of_decide_eq_true h
    have hW : g55.W = 5 := rfl
    have hH : g55.H = 5 := rfl
    omega
  · have hW : (g55.W : Int) = 5 := rfl
    have hH : (g55.H : Int) = 5 := rfl
    rw [hW] at hx'
    rw [hH] at hy'
    interval_cases x <;> interval_cases y <;> decide

/-- The block on the smallest grid, across both edges. -/
theorem witness_BlockIsAStillLife : (alive g44 [15, 12, 3, 0]).Inv ∧ 4 ≤ g44.W ∧ 4 ≤ g44.H ∧
    LiveExactly (alive g44 [15, 12, 3, 0]) 3 3 [(0, 0), (1, 0), (0, 1), (1, 1)] :=
  ⟨alive_inv _ _ (by decide), by decide, by decide, by unfold LiveExactly; decide⟩

/-- The blinker on the smallest grid, across an edge (program P2). -/
theorem witness_BlinkerHasPeriodTwo : (alive g55 [4, 0, 1]).Inv ∧ 5 ≤ g55.W ∧ 5 ≤ g55.H ∧
    LiveExactly (alive g55 [4, 0, 1]) 4 0 [(0, 0), (1, 0), (2, 0)] :=
  ⟨alive_inv _ _ (by decide), by decide, by decide, by unfold LiveExactly; decide⟩

/-- The glider on the smallest grid, across both edges (program P3, wrapped variant). -/
theorem witness_GliderMovesDiagonallyInFourSteps : (alive g66 [29, 30, 4, 5, 0]).Inv ∧ 6 ≤ g66.W ∧
    6 ≤ g66.H ∧ LiveExactly (alive g66 [29, 30, 4, 5, 0]) 4 4 glider :=
  ⟨alive_inv _ _ (by decide), by decide, by decide, by unfold LiveExactly; decide⟩

/-- The last pattern of the table and the first id past it. -/
theorem witness_SeedAddsThePattern : (alive g66 [0]).Inv ∧ 1 < g66.PAT.length ∧ g66.PAT.length ≤ 2 :=
  ⟨alive_inv _ _ (by decide), by decide, by decide⟩

theorem witness_SeedIsIndependentOfOffsetOrder : (alive g66 [0]).buf0.wf ∧ (alive g66 [0]).buf1.wf ∧
    glider.Perm glider.reverse := ⟨by decide, by decide, (List.reverse_perm _).symm⟩

/-- `FLT` clear, and set by an earlier fault. -/
theorem witness_RdstatReadsTheStatusRegisters : (alive g53 []).flt = 0 ∧
    (raiseFault (alive g53 []) .patRange).1.flt ≠ 0 := by decide

/-- A STEP issued, and another command issued. -/
theorem witness_OnlyStepMovesTheRoleFlag :
    (∃ m' q', step ⟨g53, alive g53 [0], host [⟨0x0D, {}⟩]⟩ = .next ⟨g53, m', q'⟩) ∧
    (∃ cmd rest, (host (c := g53) [⟨0x0D, {}⟩]).pending = cmd :: rest ∧ decode cmd = .ok .step) ∧
    (∃ m' q', step ⟨g53, alive g53 [0], host [⟨0x1D, {}⟩]⟩ = .next ⟨g53, m', q'⟩) ∧
    ∀ cmd rest, (host (c := g53) [⟨0x1D, {}⟩]).pending = cmd :: rest → decode cmd ≠ .ok .step :=
  ⟨⟨_, _, rfl⟩, ⟨_, _, rfl, by decide⟩, ⟨_, _, rfl⟩, fun cmd rest h => by cases h; decide⟩

/-- A step that answers, and an idle one. -/
theorem witness_FaultRegisterIsSticky :
    (∃ m' q' r, step ⟨g53, alive g53 [0], host [⟨0x04, { opi := 15 }⟩]⟩ = .next ⟨g53, m', q'⟩ ∧
      q'.responses = (host (c := g53) [⟨0x04, { opi := 15 }⟩]).responses ++ [r]) ∧
    (∃ m' q', step ⟨g53, alive g53 [0], host []⟩ = .next ⟨g53, m', q'⟩) ∧
    (host (c := g53) []).pending = [] ∧ (alive g53 [0]).flt.toNat ≤ 3 :=
  ⟨⟨_, _, _, rfl, rfl⟩, ⟨_, _, rfl⟩, rfl, by decide⟩

/-- One command for each status 0 to 3, at the bounds of the two range checks. -/
theorem witness_StatusIsTheCodeOfTheOnlyFault :
    (host (c := g53) [⟨0x24, { opi := 15 }⟩]).pending = ⟨0x24, { opi := 15 }⟩ :: [] ∧
    (0x24 : Header).toNat ∉ legalHeaders ∧
    (0x04 : Header).toNat ∈ legalHeaders ∧ readsI (opField 0x04) = true ∧ g53.N ≤ (15 : BitVec g53.IW).toNat ∧
    ¬ g53.N ≤ (14 : BitVec g53.IW).toNat ∧
    (0x0E : Header).toNat ∈ legalHeaders ∧ opField 0x0E = 0xE ∧ g53.NPAT ≤ (2 : Nibble).toNat ∧
    ¬ g53.NPAT ≤ (1 : Nibble).toNat := by decide

theorem witness_FaultsHaveNoOtherEffect :
    ∃ m' q' r, step ⟨g53, alive g53 [0], host [⟨0x0E, { opp := 2 }⟩]⟩ = .next ⟨g53, m', q'⟩ ∧
      q'.responses = (host (c := g53) [⟨0x0E, { opp := 2 }⟩]).responses ++ [r] ∧ r.status ≠ 0 :=
  ⟨_, _, _, rfl, rfl, by decide⟩

theorem witness_StepRunsTheDecodedInstruction :
    (host (c := g53) [⟨0x08, { opi := 14 }⟩]).pending = ⟨0x08, { opi := 14 }⟩ :: [] ∧
    decode (⟨0x08, { opi := 14 }⟩ : Command g53) = .ok (.setaI 14) := by decide

theorem witness_IdleBlockHoldsItsState : (host (c := g53) []).pending = [] := rfl

/-- A command issued with a response already received, and another command behind it. -/
theorem witness_CommandsTakeEffectInOrder :
    ∃ m' q', step ⟨g53, alive g53 [0], ⟨⟨0x08, { opi := 14 }⟩ :: [⟨0x0D, {}⟩], [{ rs := 8 }]⟩⟩ =
      .next ⟨g53, m', q'⟩ := ⟨_, _, rfl⟩

theorem witness_RunAnswersEveryCommand : (alive g53 [0]).clean := show (alive g53 [0]).flt = 0 by decide

theorem witness_EveryStepKeepsTheInvariant :
    (State.mk g53 (alive g53 [0]) (host [⟨0x0D, {}⟩])).Inv ∧
    ∃ t, step ⟨g53, alive g53 [0], host [⟨0x0D, {}⟩]⟩ = .next t := ⟨alive_inv _ _ (by decide), ⟨_, rfl⟩⟩

/-- A reachable block that holds a live cell beside its padding, and the first and last padding bits. -/
theorem witness_PaddingIsAlwaysZero :
    (∃ (m : Block g75) (q : Issuer g75), Reachable g75 m q ∧ getState m m.act 34 = true) ∧
    g75.N ≤ 35 ∧ 35 < g75.NW * g75.BPW ∧ g75.N ≤ 63 ∧ 63 < g75.NW * g75.BPW :=
  ⟨⟨_, _, .step (.issue [⟨0x08, { opi := 34 }⟩] .reset) rfl, by decide⟩, by decide, by decide, by decide,
    by decide⟩

/-- Two blocks that differ in the future buffer, with a STEP issued. -/
theorem witness_FutureBufferIsUnobservable :
    let m := alive g53 [0]
    let n := writeCells m 1 [(2, true), (14, true)]
    m.Inv ∧ n.Inv ∧ m ≠ n ∧ SameButFuture m n ∧
      (∃ m' q', step ⟨g53, m, host [⟨0x0D, {}⟩]⟩ = .next ⟨g53, m', q'⟩) ∧
      (∃ n' p', step ⟨g53, n, host [⟨0x0D, {}⟩]⟩ = .next ⟨g53, n', p'⟩) ∧
      Instr.nop ≠ .step ∧ ∃ m' q', exec .nop ⟨g53, m, {}⟩ = .next ⟨g53, m', q'⟩ :=
  ⟨alive_inv _ _ (by decide), inv_writeCells (alive_inv _ _ (by decide)) 1 (by decide), by decide,
    ⟨rfl, rfl, rfl⟩, ⟨_, _, rfl⟩, ⟨_, _, rfl⟩, by decide, ⟨_, _, rfl⟩⟩

/-- The same cells in words of 32 bits and in words of 4 bits with three workers. -/
theorem witness_WordWidthAndWorkersAreUnobservable :
    let c' := g53.withLayout 4 3 (by decide) (by decide)
    let m := alive g53 [0, 14]
    let n : Block c' := alive c' [0, 14]
    let q := host (c := g53) [⟨0x0D, {}⟩]
    m.Inv ∧ n.Inv ∧ SameCells m n ∧ (∃ m' q', step ⟨g53, m, q⟩ = .next ⟨g53, m', q'⟩) ∧
      ∃ n' p', step ⟨c', n, q.atLayout⟩ = .next ⟨c', n', p'⟩ :=
  ⟨alive_inv _ _ (by decide), alive_inv _ _ (by decide), ⟨by decide, rfl, rfl⟩, ⟨_, _, rfl⟩, ⟨_, _, rfl⟩⟩

/-- An unfinished schedule, and a finished one for each way to conform: aligned words with plain writes,
atomic bits, and locks with a wait for the held word. -/
theorem witness_ConformingWorkersRefineStep :
    (alive g13 [1]).Inv ∧ (startSweep (alive g13 [1]) [[1, 0], [2]]).finished = false ∧
    (Partition.legal g13 [[1, 0], [2]] ∧ conforming g13 .plain [[1, 0], [2]] ∧
      (runSweep .plain (startSweep (alive g13 [1]) [[1, 0], [2]])
        [⟨0, 0⟩, ⟨1, 0⟩, ⟨0, 3⟩, ⟨1, 0⟩, ⟨0, 0⟩, ⟨0, 0⟩]).finished = true) ∧
    (Partition.legal g13 [[0, 2], [1]] ∧ conforming g13 .atomicBit [[0, 2], [1]] ∧
      (runSweep .atomicBit (startSweep (alive g13 [1]) [[0, 2], [1]])
        [⟨0, 0⟩, ⟨1, 0⟩, ⟨0, 0⟩]).finished = true) ∧
    (Partition.legal g13 [[0, 2], [1]] ∧ conforming g13 .wordLock [[0, 2], [1]] ∧
      (runSweep .wordLock (startSweep (alive g13 [1]) [[0, 2], [1]])
        [⟨0, 0⟩, ⟨1, 0⟩, ⟨0, 3⟩, ⟨1, 0⟩, ⟨0, 0⟩, ⟨0, 0⟩, ⟨1, 3⟩]).finished = true) :=
  ⟨alive_inv _ _ (by decide), by decide, by decide, by decide, by decide⟩

/-- A partition that conforms to nothing: the first word's cells are split between two workers. -/
theorem witness_RacesLeaveWrittenOrStaleBits : (alive g13 [1]).Inv ∧ Partition.legal g13 [[0, 2], [1]] ∧
    ¬ conforming g13 .plain [[0, 2], [1]] ∧ 2 < g13.N ∧ g13.N ≤ 3 :=
  ⟨alive_inv _ _ (by decide), by decide, by decide, by decide, by decide⟩

theorem witness_AssembledLinesDecodeToTheirCommands :
    (assembleLines g53 [.stepN 2, .core (.setsI 15 true), .seedL 4 4 [(1, 0), (2, 1)]]).isSome = true := by
  decide

theorem witness_SeedlWritesWhatSeedWrites : 1 < g66.PAT.length := by decide

/-- The operand record the ends of whose fields decode as rule R63 says. -/
theorem witness_LegalHeadersSelectTheirCommands :
    sextValue (0x80000000 : BitVec g53.CW) = -2147483648 ∧ sextValue (0x7FFFFFFF : BitVec g53.CW) = 2147483647 ∧
    (15 : BitVec g53.IW).toNat = 15 := by decide

end Sys2Proof.Tests
end

section
/-! The sizes derived from the parameters (rules R10, R12), and the step that runs a decoded instruction. -/

namespace Sys2Proof

/-- `bitlen` is the least width of an unsigned field that holds the value (rule R12). -/
theorem bitlen_le_iff {v w : Nat} : bitlen v ≤ w ↔ v < 2 ^ w := by
  unfold bitlen
  split
  · subst_vars; simp
  · exact Nat.log2_lt ‹_›

/-- The width rule R12 gives a field of `n` values is the least one, of at least one bit, that holds them. -/
theorem width_le_iff {n w : Nat} (hn : 1 ≤ n) : max 1 (bitlen (n - 1)) ≤ w ↔ 1 ≤ w ∧ n ≤ 2 ^ w := by
  rw [max_le_iff, bitlen_le_iff, Nat.sub_lt_iff_lt_add hn, Nat.lt_add_one_iff]

/-- A field whose values fit `w + 1` bits and no fewer has that width. -/
theorem width_eq {n w : Nat} (hlo : 2 ^ w < n) (hhi : n ≤ 2 ^ (w + 1)) :
    max 1 (bitlen (n - 1)) = w + 1 := by
  have hn : 1 ≤ n := Nat.one_le_of_lt hlo
  have hfits : max 1 (bitlen (n - 1)) ≤ w + 1 := (width_le_iff hn).2 ⟨Nat.le_add_left 1 w, hhi⟩
  have htight : ¬ max 1 (bitlen (n - 1)) ≤ w := fun h => hlo.not_ge ((width_le_iff hn).1 h).2
  omega

/-- The words overshoot the cells by less than one word (rule R10). -/
theorem Config.NW_mul_lt (c : Config) : c.NW * c.BPW < c.N + c.BPW := by
  have h : c.NW * c.BPW ≤ c.N + c.BPW - 1 := Nat.div_mul_le_self _ _
  have := c.N_pos
  omega

/-- Settles O3: `NW` by the two bounds of the ceiling, the widths by `width_le_iff`. -/
theorem derivedSizesFitTheGrid : Obligations.DerivedSizesFitTheGrid := by
  refine ⟨fun c => ⟨?_, ?_, ?_, fun _ => width_le_iff c.N_pos, fun _ => width_le_iff c.W_pos,
    fun _ => width_le_iff c.H_pos⟩, width_eq ?_ ?_, width_eq ?_ ?_, width_eq ?_ ?_⟩
  · have := c.NW_mul_lt
    have := c.N_pos
    rw [Nat.sub_mul]
    omega
  · exact (Nat.add_sub_cancel' c.N_le_NW_mul).symm
  · exact Nat.sub_lt_left_of_lt_add c.N_le_NW_mul c.NW_mul_lt
  all_goals decide

end Sys2Proof

namespace Sys2Proof.Machine

/-- Settles O42: `step_decoded`, for every block and host. -/
theorem stepRunsTheDecodedInstruction : Obligations.StepRunsTheDecodedInstruction :=
  fun _ _ _ _ _ _ hp hd => step_decoded hp hd

end Sys2Proof.Machine
end

section
/-!
Two layouts: a block in words of one width, and a block in words of another with another number of workers,
that hold the same cells and status registers.  Every command gives them the same cells and the
same response (rules R9, R14, R42).
-/

namespace Sys2Proof.Machine

variable {c : Config} {BPW P : Nat} {hB : 1 ≤ BPW} {hP : 1 ≤ P} {m : Block c}
  {n : Block (c.withLayout BPW P hB hP)}

/-- A command gave the same cells, registers and response on both layouts. -/
structure SameResult (r : Result c) (r' : Result (c.withLayout BPW P hB hP)) : Prop where
  cells : SameCells r.1 r'.1
  response : r'.2 = r.2.atLayout

/-! ### The shared operations -/

theorem SameCells.raiseFault (h : SameCells m n) (f : FaultCode) :
    SameResult (raiseFault m f) (raiseFault n f) where
  cells := ⟨h.cells, h.act, by simp [h.flt]⟩
  response := rfl

/-- Both layouts have the same indices, so the index check goes the same way. -/
theorem SameCells.withIndex (h : SameCells m n) (i : Nat) {r : Result c}
    {r' : Result (c.withLayout BPW P hB hP)} (hr : i < c.N → SameResult r r') :
    SameResult (withIndex m i r) (withIndex n i r') := by
  by_cases hi : i < c.N
  · rw [withIndex_of_lt hi, withIndex_of_lt (show i < (c.withLayout BPW P hB hP).N from hi)]
    exact hr hi
  · have hle := Nat.le_of_not_lt hi
    rw [withIndex_of_le hle, withIndex_of_le (show (c.withLayout BPW P hB hP).N ≤ i from hle)]
    exact h.raiseFault _

/-- One cell written on both layouts: each write changes that cell alone, whatever word holds it. -/
theorem SameCells.setState (h : SameCells m n) {b : Fin 2} (hm : Memory.rising (m.buf b))
    (hn : Memory.rising (n.buf b)) (i : Nat) (v : Bool) :
    SameCells (setState m b i v) (setState n b i v) where
  cells b' j hj := by rw [getState_setState hm, getState_setState hn, h.cells b' j hj]
  act := by simp [h.act]
  flt := by simp [h.flt]

theorem SameCells.writeCells (h : SameCells m n) {b : Fin 2} (hm : Memory.rising (m.buf b))
    (hn : Memory.rising (n.buf b)) (ws : List (Nat × Bool)) :
    SameCells (writeCells m b ws) (writeCells n b ws) := by
  induction ws generalizing m n with
  | nil => exact h
  | cons w ws ih =>
    exact ih (h.setState hm hn w.1 w.2) (rising_writeCells hm [w]) (rising_writeCells hn [w])

/-! ### The counter and the stepper -/

theorem SameCells.countLive (h : SameCells m n) (b : Fin 2) (x y : Int) :
    countLive n b x y = countLive m b x y := by
  have hcell : ∀ u v : Int, getState n b (toIndex c u v) = getState m b (toIndex c u v) := fun u v =>
    h.cells b _ (toIndex_lt c u v)
  simp only [Machine.countLive, ← hcell]
  rfl

theorem SameCells.nextCell (h : SameCells m n) {i : Nat} (hi : i < c.N) :
    nextCell n i = nextCell m i := by
  simp only [Machine.nextCell, h.act, h.countLive, h.cells _ i hi]
  rfl

/-- The sweeps write the same list of cells (rule R127). -/
theorem SameCells.stepGeneration (h : SameCells m n) (hm : m.Inv) (hn : n.Inv) :
    SameCells (stepGeneration m) (stepGeneration n) := by
  have hws : (List.range c.N).map (fun i => (i, Machine.nextCell n i)) =
      (List.range c.N).map fun i => (i, Machine.nextCell m i) :=
    List.map_congr_left fun i hi => by rw [h.nextCell (List.mem_range.1 hi)]
  have hsweep : SameCells (sweep m (List.range c.N)) (sweep n (List.range c.N)) := by
    rw [sweep_eq, sweep_eq, hws, h.act]
    exact h.writeCells (hm.rising _) (hn.rising _) _
  exact ⟨hsweep.cells, congrArg otherBuf hsweep.act, hsweep.flt⟩

/-! ### Commands and steps -/

/-- Every command gives the same result on both layouts. -/
theorem SameCells.meaning (h : SameCells m n) (hm : m.Inv) (hn : n.Inv) (i : Instr) :
    SameResult (meaning i m) (meaning i n) := by
  have bit : ∀ j, j < c.N → SameResult (m, { rv := BitVec.ofBool (getState m m.act j) })
      (n, { rv := BitVec.ofBool (getState n n.act j) }) := fun j hj =>
    ⟨h, by rw [h.act, h.cells _ j hj]; rfl⟩
  have write : ∀ j v, SameResult (Machine.setState m m.act j v, {}) (Machine.setState n n.act j v, {}) :=
    fun j v => ⟨h.act ▸ h.setState (hm.rising _) (hn.rising _) j v, rfl⟩
  cases i with
  | nop => exact ⟨h, rfl⟩
  | toidx x y => exact ⟨h, rfl⟩
  | fromidx k => exact h.withIndex k fun _ => ⟨h, rfl⟩
  | getXY x y => exact bit _ (toIndex_lt c x y)
  | getI k => exact h.withIndex k (bit k)
  | setaXY x y => exact write _ true
  | setdXY x y => exact write _ false
  | setsXY x y v => exact write _ v
  | setaI k => exact h.withIndex k fun _ => write k true
  | setdI k => exact h.withIndex k fun _ => write k false
  | setsI k v => exact h.withIndex k fun _ => write k v
  | count x y => exact ⟨h, by simp only [Machine.meaning, count, h.act, h.countLive]; rfl⟩
  | rule e k => exact ⟨h, rfl⟩
  | step => exact ⟨h.stepGeneration hm hn, rfl⟩
  | seed ax ay pid =>
    simp only [Machine.meaning, seed, show patternOf (c.withLayout BPW P hB hP) pid = patternOf c pid from rfl]
    cases patternOf c pid with
    | none => exact h.raiseFault _
    | some pat =>
      refine ⟨?_, rfl⟩
      simp only [seedPattern_eq, h.act]
      exact h.writeCells (hm.rising _) (hn.rising _) _
  | rdstat => exact ⟨h, by simp only [Machine.meaning, rdstat, h.act, h.flt]; rfl⟩

/-- The operand fields have the same widths on both layouts, so a command reads the same. -/
theorem decode_atLayout (cmd : Command c) :
    decode (cmd.atLayout : Command (c.withLayout BPW P hB hP)) = decode cmd := rfl

theorem SameCells.perform (h : SameCells m n) (hm : m.Inv) (hn : n.Inv) (cmd : Command c) :
    SameResult (perform cmd m) (perform cmd.atLayout n) := by
  match hd : decode cmd with
  | .error e =>
    rw [perform_illegal hd, perform_illegal ((decode_atLayout cmd).trans hd)]
    exact h.raiseFault _
  | .ok i =>
    rw [perform_decoded hd, perform_decoded ((decode_atLayout cmd).trans hd)]
    exact h.meaning hm hn i

@[simp] theorem receive_atLayout (q : Issuer c) (r : Response c) :
    (q.receive r).atLayout (hB := hB) (hP := hP) = q.atLayout.receive r.atLayout := by
  simp [Issuer.atLayout, Issuer.receive]

end Sys2Proof.Machine
end

section
/-! The layout of the storage is unobservable (rules R9, R14). -/

namespace Sys2Proof.Machine

/-- Settles O53: both hosts issue the same next command, and `SameCells.perform` carries the relation over
it. -/
theorem wordWidthAndWorkersAreUnobservable : Obligations.WordWidthAndWorkersAreUnobservable := by
  intro c BPW P hB hP m m' q q' n n' p' hm hn h hstep hstep'
  match hp : q.pending with
  | [] =>
    rw [step_idle hp] at hstep
    rw [step_idle (by simp [Issuer.atLayout, hp])] at hstep'
    cases hstep
    cases hstep'
    exact ⟨h, rfl⟩
  | cmd :: rest =>
    have hp' : (q.atLayout (hB := hB) (hP := hP)).pending = cmd.atLayout :: rest.map Command.atLayout := by
      simp [Issuer.atLayout, hp]
    obtain ⟨hcells, hresp⟩ := h.perform hm hn cmd
    rw [step_perform hp, finish_eq] at hstep
    rw [step_perform hp', finish_eq, hresp] at hstep'
    cases hstep
    cases hstep'
    exact ⟨hcells, (receive_atLayout ⟨rest, q.responses⟩ _).symm⟩

end Sys2Proof.Machine
end

section
/-!
The persistent state through a step (10_state.md): its reset values, the invariant, and how `ACT` and `FLT`
move.
-/

namespace Sys2Proof.Machine

variable {c : Config}

/-! ### Reset and the invariant -/

@[simp] theorem reset_buf (c : Config) (b : Fin 2) : (Block.reset c).buf b = [] := by
  fin_cases b <;> rfl

/-- Every block a run from reset reaches meets the invariant. -/
theorem inv_of_reachable {m : Block c} {q : Issuer c} (h : Reachable c m q) : m.Inv := by
  induction h with
  | reset => exact inv_reset c
  | issue cmds _ ih => exact ih
  | step _ hstep ih => exact inv_of_stepTo ih (stepTo_of_step hstep)

/-- Settles O48: whatever the step does, `inv_of_stepTo` carries the invariant over it. -/
theorem everyStepKeepsTheInvariant : Obligations.EveryStepKeepsTheInvariant := by
  rintro ⟨c, m, q⟩ t hinv hstep
  obtain ⟨m', q', hnext, hto⟩ := step_to m q
  rw [hnext] at hstep
  cases hstep
  exact inv_of_stepTo hinv hto

/-- Settles O49: padding is part of the invariant of every reachable block. -/
theorem paddingIsAlwaysZero : Obligations.PaddingIsAlwaysZero :=
  fun _ _ _ hreach b j hN hj => (inv_of_reachable hreach).padded b j hN hj

/-- Settles O47: `inv_reset`, for the machine around the block. -/
theorem resetMeetsTheInvariant : Obligations.ResetMeetsTheInvariant := inv_reset

/-- Settles O1: an empty buffer lists no word, so each reads as the unlisted one. -/
theorem resetGivesTheSpecValues : Obligations.ResetGivesTheSpecValues :=
  fun c => ⟨rfl, fun b k => by rw [reset_buf, wordRead_nil], rfl, rfl, rfl⟩

/-! ### The status registers -/

/-- RDSTAT, its result written out. -/
theorem exec_rdstat (m : Block c) (q : Issuer c) :
    exec .rdstat ⟨c, m, q⟩ = answered m q { ract := BitVec.ofNat 1 m.act.val, rflt := m.flt } := rfl

theorem otherBuf_val (b : Fin 2) : (otherBuf b).val = 1 - b.val := by fin_cases b <;> rfl

/-- A step that performs no STEP leaves the role flag (rule R24). -/
theorem act_of_stepTo {m m' : Block c} {q q' : Issuer c} (h : StepTo m q m' q')
    (hne : ∀ cmd rest, q.pending = cmd :: rest → decode cmd ≠ .ok .step) : m'.act = m.act := by
  cases h with
  | idle hp => rfl
  | illegal cmd rest e hp hd => exact raiseFault_act m _
  | runs cmd rest i m' r hp hd heff =>
    have hi : i ≠ .step := fun hi => hne cmd rest hp (hi ▸ hd)
    exact (effect_act heff).trans (if_neg hi)

/-- Settles O37: a STEP issued is `exec_step`, and any other step is `act_of_stepTo`. -/
theorem onlyStepMovesTheRoleFlag : Obligations.OnlyStepMovesTheRoleFlag := by
  refine fun c => ⟨rfl, exec_rdstat, fun m m' q q' hstep => ⟨?_, act_of_stepTo (stepTo_of_step hstep)⟩⟩
  rintro ⟨cmd, rest, hp, hd⟩
  rw [step_decoded hp hd, exec_step] at hstep
  cases hstep
  rw [stepGeneration_act, otherBuf_val]

/-- `FLT` takes the STATUS of the response a step returns, if it was 0 (rule R28). -/
theorem flt_of_stepTo {m m' : Block c} {q q' : Issuer c} {r : Response c} (h : StepTo m q m' q')
    (hr : q'.responses = q.responses ++ [r]) : m'.flt = stickyFlt m.flt r.status := by
  cases h with
  | idle hp => simp at hr
  | illegal cmd rest e hp hd =>
    obtain rfl : ({ status := 1 } : Response c) = r := by simpa using hr
    rfl
  | runs cmd rest i m' r' hp hd heff =>
    obtain rfl : r' = r := by simpa using hr
    exact effect_flt heff

/-- No command leaves the legal fault codes. -/
theorem flt_legal_of_effect {i : Instr} {m : Block c} {r : Result c} (h : Effect i m r)
    (hm : m.flt.toNat ≤ 3) : r.1.flt.toNat ≤ 3 := by
  cases h with
  | answers r hr hi => exact hm
  | faults f hi => exact stickyFlt_legal hm (faultCode_legal f)
  | writes ws hw hi => simpa using hm
  | steps hi => simpa using hm

theorem flt_legal_of_stepTo {m m' : Block c} {q q' : Issuer c} (h : StepTo m q m' q')
    (hm : m.flt.toNat ≤ 3) : m'.flt.toNat ≤ 3 := by
  cases h with
  | idle hp => exact hm
  | illegal cmd rest e hp hd => exact stickyFlt_legal hm (faultCode_legal _)
  | runs cmd rest i m' r hp hd heff => exact flt_legal_of_effect heff hm

/-- Settles O38: `flt_of_stepTo` for a step that answers, `step_idle` for one that does not. -/
theorem faultRegisterIsSticky : Obligations.FaultRegisterIsSticky := by
  refine fun c => ⟨rfl, exec_rdstat, fun m m' q q' r hstep => flt_of_stepTo (stepTo_of_step hstep), ?_,
    fun m m' q q' hstep => flt_legal_of_stepTo (stepTo_of_step hstep)⟩
  intro m m' q q' hstep hp
  rw [step_idle hp] at hstep
  cases hstep
  rfl

/-! ### The order of commands, and the live set -/

/-- Settles O45: `step_perform` says what a step does, and it names neither the commands behind the first nor
the responses received. -/
theorem commandsTakeEffectInOrder : Obligations.CommandsTakeEffectInOrder := by
  intro c m cmd
  have hperform : ∀ rest rs, step ⟨c, m, ⟨cmd :: rest, rs⟩⟩ =
      .next ⟨c, (perform cmd m).1, ⟨rest, rs ++ [(perform cmd m).2]⟩⟩ := fun rest rs => step_perform rfl
  refine ⟨hperform, fun rest bs rs m' q' hstep => ?_⟩
  rw [hperform] at hstep
  cases hstep
  exact hperform (rest ++ bs) rs

/-- Settles O50: `toIndex` and `fromIndex` are inverse between the indices and the grid's coordinates. -/
theorem liveSetIsTheAliveCoordinates : Obligations.LiveSetIsTheAliveCoordinates := by
  intro c m x y
  simp only [liveSet, List.mem_map, List.mem_filter, List.mem_range]
  constructor
  · rintro ⟨i, ⟨hi, halive⟩, hxy⟩
    obtain ⟨rfl, rfl⟩ := Prod.mk.inj hxy
    exact ⟨fromIndex_fst_lt c i, fromIndex_snd_lt c hi, (toIndex_fromIndex c hi).symm ▸ halive⟩
  · rintro ⟨hx, hy, halive⟩
    refine ⟨toIndex c x y, ⟨toIndex_lt c x y, halive⟩, ?_⟩
    rw [fromIndex_toIndex, wrap_of_lt hx, wrap_of_lt hy]

end Sys2Proof.Machine
end

section
/-!
The future buffer is unobservable (rule R27): only STEP writes it, and every command gives two blocks that
differ at most in it the same response and blocks that again differ at most in it.
-/

namespace Sys2Proof.Machine

variable {c : Config} {m n : Block c}

/-- Every command but STEP leaves the future buffer. -/
theorem future_of_effect {i : Instr} {r : Result c} (h : Effect i m r) (hne : i ≠ .step) :
    r.1.buf (otherBuf r.1.act) = m.buf (otherBuf m.act) := by
  cases h with
  | answers r hr hi => rfl
  | faults f hi => rfl
  | writes ws hw hi => rw [writeCells_act, writeCells_buf_of_ne m (otherBuf_ne m.act)]
  | steps hi => exact absurd hi hne

/-- A command answered alike on two blocks, and left them different at most in the future buffer. -/
structure AlikeButFuture (r r' : Result c) : Prop where
  block : SameButFuture r.1 r'.1
  response : r'.2 = r.2

/-! ### What is read -/

theorem SameButFuture.getState_eq (h : SameButFuture m n) (i : Nat) :
    getState n n.act i = getState m m.act i := by
  unfold getState
  rw [h.active]

theorem SameButFuture.countLive_eq (h : SameButFuture m n) (x y : Int) :
    countLive n n.act x y = countLive m m.act x y :=
  countLive_congr (fun i _ => h.getState_eq i) x y

theorem SameButFuture.liveSet_eq (h : SameButFuture m n) : liveSet n = liveSet m := by
  unfold liveSet
  rw [funext h.getState_eq]

theorem SameButFuture.observe_eq (h : SameButFuture m n) (q : Issuer c) : observe n q = observe m q := by
  unfold observe
  rw [h.liveSet_eq, h.flt]

/-! ### The shared operations -/

theorem SameButFuture.alike_raiseFault (h : SameButFuture m n) (f : FaultCode) :
    AlikeButFuture (raiseFault m f) (raiseFault n f) where
  block := ⟨h.act, h.active, by simp [h.flt]⟩
  response := rfl

theorem SameButFuture.alike_withIndex (h : SameButFuture m n) (i : Nat) {r r' : Result c}
    (hr : AlikeButFuture r r') : AlikeButFuture (withIndex m i r) (withIndex n i r') := by
  unfold withIndex
  split
  · exact hr
  · exact h.alike_raiseFault _

theorem SameButFuture.alike_writeCells (h : SameButFuture m n) (ws : List (Nat × Bool)) :
    AlikeButFuture (writeCells m m.act ws, {}) (writeCells n n.act ws, {}) where
  block :=
    { act := by simp [h.act]
      active := by simpa using writeCells_buf_congr h.active ws
      flt := by simp [h.flt] }
  response := rfl

/-- The buffers just written hold the same cells, each the next state of a cell of the active buffer, and the
invariant makes buffers of the same cells equal. -/
theorem SameButFuture.stepGeneration (h : SameButFuture m n) (hm : m.Inv) (hn : n.Inv) :
    SameButFuture (stepGeneration m) (stepGeneration n) where
  act := by simp [h.act]
  active := by
    refine buf_eq_of_cells (inv_stepGeneration hn) (inv_stepGeneration hm) fun i hi => ?_
    rw [stepGeneration_act, stepGeneration_act, getState_stepGeneration (hn.rising _),
      getState_stepGeneration (hm.rising _), if_pos hi, if_pos hi]
    exact nextCell_congr (fun j _ => h.getState_eq j) hi
  flt := by simp [h.flt]

/-! ### Commands and steps -/

theorem SameButFuture.alike_meaning (h : SameButFuture m n) (hm : m.Inv) (hn : n.Inv) (i : Instr) :
    AlikeButFuture (meaning i m) (meaning i n) := by
  have bit : ∀ j, AlikeButFuture (m, { rv := BitVec.ofBool (getState m m.act j) })
      (n, { rv := BitVec.ofBool (getState n n.act j) }) := fun j => ⟨h, by rw [h.getState_eq]⟩
  have write : ∀ j v, AlikeButFuture (setState m m.act j v, {}) (setState n n.act j v, {}) := fun j v =>
    h.alike_writeCells [(j, v)]
  cases i with
  | nop => exact ⟨h, rfl⟩
  | toidx x y => exact ⟨h, rfl⟩
  | fromidx k => exact h.alike_withIndex k ⟨h, rfl⟩
  | getXY x y => exact bit _
  | getI k => exact h.alike_withIndex k (bit k)
  | setaXY x y => exact write _ true
  | setdXY x y => exact write _ false
  | setsXY x y v => exact write _ v
  | setaI k => exact h.alike_withIndex k (write k true)
  | setdI k => exact h.alike_withIndex k (write k false)
  | setsI k v => exact h.alike_withIndex k (write k v)
  | count x y => exact ⟨h, by simp only [meaning, count, h.countLive_eq]⟩
  | rule e k => exact ⟨h, rfl⟩
  | step => exact ⟨h.stepGeneration hm hn, rfl⟩
  | seed ax ay pid =>
    simp only [meaning, seed]
    cases patternOf c pid with
    | none => exact h.alike_raiseFault _
    | some pat =>
      simp only [seedPattern_eq]
      exact h.alike_writeCells _
  | rdstat => exact ⟨h, by simp only [meaning, rdstat, h.act, h.flt]⟩

theorem SameButFuture.alike_perform (h : SameButFuture m n) (hm : m.Inv) (hn : n.Inv) (cmd : Command c) :
    AlikeButFuture (perform cmd m) (perform cmd n) := by
  match hd : decode cmd with
  | .error e =>
    rw [perform_illegal hd, perform_illegal hd]
    exact h.alike_raiseFault _
  | .ok i =>
    rw [perform_decoded hd, perform_decoded hd]
    exact h.alike_meaning hm hn i

/-- A step keeps the relation, and the host ends with the same responses. -/
theorem SameButFuture.step (h : SameButFuture m n) (hm : m.Inv) (hn : n.Inv) {m' n' : Block c}
    {q q' p' : Issuer c} (hstep : step ⟨c, m, q⟩ = .next ⟨c, m', q'⟩)
    (hstep' : step ⟨c, n, q⟩ = .next ⟨c, n', p'⟩) : SameButFuture m' n' ∧ p' = q' := by
  match hp : q.pending with
  | [] =>
    rw [step_idle hp] at hstep hstep'
    cases hstep
    cases hstep'
    exact ⟨h, rfl⟩
  | cmd :: rest =>
    obtain ⟨hblock, hresp⟩ := h.alike_perform hm hn cmd
    rw [step_perform hp, finish_eq] at hstep hstep'
    cases hstep
    cases hstep'
    exact ⟨hblock, by rw [hresp]⟩

/-- Settles O52: `future_of_effect` for the writer, `SameButFuture.step` for the observer. -/
theorem futureBufferIsUnobservable : Obligations.FutureBufferIsUnobservable := by
  constructor
  · intro c m m' q q' i hne hexec
    obtain ⟨r, -, heff⟩ := effect_of_exec hexec
    exact future_of_effect heff hne
  · intro c m n m' n' q p' q' hm hn h hstep hstep'
    obtain ⟨hblock, rfl⟩ := h.step hm hn hstep hstep'
    exact ⟨hblock, rfl, hblock.observe_eq p'⟩

end Sys2Proof.Machine
end

section
/-!
Storage and its frame (20_memory.md): a cell as a bit of its word, the commands that write no cell, runs of
commands, and the frame a host displays.
-/

namespace Sys2Proof.Machine

variable {c : Config}

/-- A bit of a vector is the shift and mask of its value (rule R40). -/
theorem toNat_getLsbD {w : Nat} (v : BitVec w) (p : Nat) : (v.getLsbD p).toNat = (v.toNat >>> p) &&& 1 := by
  rw [BitVec.getLsbD, Nat.toNat_testBit, Nat.and_one_is_mod, Nat.shiftRight_eq_div_pow]

/-- Settles O15: a cell read is a bit of its word. -/
theorem cellIsABitOfItsWord : Obligations.CellIsABitOfItsWord :=
  fun c _ _ _ hi => ⟨c.div_BPW_lt_NW hi, toNat_getLsbD _ _⟩

/-! ### The commands that write no cell -/

/-- The index check of a command that reads leaves the block, or raises the one fault it can raise. -/
theorem withIndex_read (m : Block c) (n : Nat) (r : Response c) :
    (withIndex m n (m, r)).1 = m ∨
      c.N ≤ n ∧ (withIndex m n (m, r)).1 = (raiseFault m .idxRange).1 := by
  rcases Nat.lt_or_ge n c.N with hn | hn
  · exact .inl (by rw [withIndex_of_lt hn])
  · exact .inr ⟨hn, by rw [withIndex_of_le hn]⟩

/-- A command that neither seeds nor steps leaves the block, or faults at an index that names no cell (rules R47,
R48, R88). -/
theorem meaning_of_reading (m : Block c) {i : Instr} (hseeds : i.seeds = false) (hi : i ≠ .step) :
    (meaning i m).1 = m ∨ ∃ n, (i = .fromidx n ∨ i = .getI n) ∧ c.N ≤ n ∧
      (meaning i m).1 = (raiseFault m .idxRange).1 := by
  cases i with
  | nop | toidx | getXY | count | rule | rdstat => exact .inl rfl
  | fromidx n => exact (withIndex_read m n _).imp_right fun h => ⟨n, .inl rfl, h⟩
  | getI n => exact (withIndex_read m n _).imp_right fun h => ⟨n, .inr rfl, h⟩
  | step => exact absurd rfl hi
  | setaXY | setdXY | setsXY | setaI | setdI | setsI | seed => cases hseeds

/-- Settles O20: the block is as it was, or a fault was raised on it, which moves `FLT` alone. -/
theorem readingCommandsChangeNoCell : Obligations.ReadingCommandsChangeNoCell := by
  intro c m m' q q' i hseeds hi hexec
  rw [exec_eq, finish_eq] at hexec
  cases hexec
  rcases meaning_of_reading m hseeds hi with hm | ⟨n, hn, hle, hm⟩
  · simp [hm]
  · rw [hm]
    exact ⟨rfl, rfl, rfl, rfl, fun hlt => absurd (hlt n hn) hle.not_gt⟩

/-! ### Runs -/

/-- A fault register is 0 after a status exactly when both were 0 (rule R28). -/
theorem stickyFlt_eq_zero_iff (flt code : Nibble) : stickyFlt flt code = 0 ↔ flt = 0 ∧ code = 0 := by
  unfold stickyFlt
  split
  · simp [*]
  next h => exact iff_of_false h fun h' => h h'.1

/-- `FLT` takes the status of the response of any command, a refused one included, if it was 0. -/
theorem perform_flt (cmd : Command c) (m : Block c) :
    (perform cmd m).1.flt = stickyFlt m.flt (perform cmd m).2.status := by
  match hd : decode cmd with
  | .error e => rw [perform_illegal hd]; rfl
  | .ok i => rw [perform_decoded hd]; exact effect_flt (meaning_effect i m)

/-- A block is clean after a command exactly when it was and the response says OK. -/
theorem clean_perform_iff (cmd : Command c) (m : Block c) :
    (perform cmd m).1.clean ↔ m.clean ∧ (perform cmd m).2.status = 0 := by
  unfold Block.clean
  rw [perform_flt, stickyFlt_eq_zero_iff]

/-- A run of the commands `as`, whatever stands behind them.  The last clause is over every block, dirty ones
included, so that it carries over a command that faults. -/
theorem run_commands (as : List (Command c)) (m : Block c) (rs : List (Response c)) : ∃ m' rs',
    (∀ bs, Host.Core.run core as.length (⟨c, m, ⟨as ++ bs, rs⟩⟩ : State) =
      .next (⟨c, m', ⟨bs, rs ++ rs'⟩⟩ : State)) ∧
    rs'.length = as.length ∧ (m'.clean ↔ m.clean ∧ ∀ r ∈ rs', r.status = 0) := by
  induction as generalizing m rs with
  | nil => exact ⟨m, [], fun bs => by rw [List.append_nil]; rfl, rfl, by simp⟩
  | cons cmd as ih =>
    obtain ⟨m', rs', hrun, hlen, hclean⟩ := ih (perform cmd m).1 (rs ++ [(perform cmd m).2])
    refine ⟨m', (perform cmd m).2 :: rs', fun bs => ?_, by simp [hlen], ?_⟩
    · rw [List.append_cons, ← hrun bs]
      exact run_succ (step_perform rfl)
    · rw [hclean, clean_perform_iff, and_assoc, List.forall_mem_cons]

/-- Settles O46: `run_commands`, from a clean block. -/
theorem runAnswersEveryCommand : Obligations.RunAnswersEveryCommand := by
  intro c m as rs
  obtain ⟨m', rs', hrun, hlen, hclean⟩ := run_commands as m rs
  exact ⟨m', rs', hrun, hlen, fun hm => by rw [hclean, and_iff_right hm]⟩

/-! ### A frame -/

/-- What GET.XY answers (rule R95). -/
def getResponse (m : Block c) (d : Int × Int) : Response c :=
  { rv := BitVec.ofBool (getState m m.act (toIndex c d.1 d.2)) }

theorem exec_getXY (m : Block c) (q : Issuer c) (d : Int × Int) :
    exec (.getXY d.1 d.2) ⟨c, m, q⟩ = .next ⟨c, m, q.receive (getResponse m d)⟩ := rfl

/-- A command that completes, and then the rest. -/
theorem execAll_cons {i : Instr} {is : List Instr} {s t : State} (h : exec i s = .next t) :
    execAll (i :: is) s = execAll is t := by
  simp only [execAll, h]

/-- Reads of a list of cells leave the block and answer each cell, in order. -/
theorem execAll_getXY (view : List (Int × Int)) (m : Block c) (q : Issuer c) :
    execAll (view.map fun d => .getXY d.1 d.2) ⟨c, m, q⟩ =
      .next ⟨c, m, { q with responses := q.responses ++ view.map (getResponse m) }⟩ := by
  induction view generalizing q with
  | nil => simp [execAll]
  | cons d view ih => rw [List.map_cons, execAll_cons (exec_getXY m q d), ih]; simp

/-- Settles O51: the reads answer the cells of the block after the STEP, which `getState_of_step` gives by those
before it. -/
theorem frameShowsTheNextGeneration : Obligations.FrameShowsTheNextGeneration := by
  intro c m q view hm
  have hread : ∀ d : Int × Int, getResponse (stepGeneration m) d =
      { rv := BitVec.ofBool
          (lifeRule (getState m m.act (toIndex c d.1 d.2)) (countLive m m.act d.1 d.2)) } := fun d => by
    rw [getResponse, getState_of_step hm (exec_step m q)]
  refine ⟨stepGeneration m, _, (execAll_cons (exec_step m q)).trans (execAll_getXY view _ _), ?_⟩
  simp [funext hread]

end Sys2Proof.Machine
end

section
/-!
The command format (30_encoding.md sections 1 and 2): the fields of a header, which headers decode, and the
decoder and the encoder as inverses of each other.
-/

namespace Sys2Proof

variable {c : Config}

/-! ### The fields of a header -/

theorem opField_toNat (hd : Header) : (opField hd).toNat = hd.toNat % 16 := by
  simp [opField, BitVec.extractLsb'_toNat]

theorem vField_toNat (hd : Header) : (vField hd).toNat = hd.toNat / 16 % 2 := by
  rw [vField, BitVec.getLsbD, Nat.toNat_testBit]

theorem rsvField_eq_zero_iff (hd : Header) : rsvField hd = 0 ↔ hd.toNat / 32 = 0 := by
  have hlt : hd.toNat / 32 < 8 := by have := hd.isLt; omega
  rw [← BitVec.toNat_inj, rsvField, BitVec.extractLsb'_toNat, Nat.shiftRight_eq_div_pow, Nat.mod_eq_of_lt hlt]
  rfl

/-- The operations with a V operand (rule R62). -/
theorem usesV_iff (op : Nibble) : usesV op = true ↔ op.toNat ∈ [0x7, 0xA, 0xC] := by
  revert op; decide

/-- The 19 values, by their fields (rule R66). -/
theorem mem_legalHeaders_iff (n : Nat) :
    n ∈ legalHeaders ↔ n / 32 = 0 ∧ (n / 16 % 2 = 1 → n % 16 ∈ [0x7, 0xA, 0xC]) := by
  simp only [legalHeaders, List.mem_append, List.mem_range, List.mem_cons, List.not_mem_nil, or_false]
  omega

/-- The decoder accepts the legal headers and no other, and reads OP and V (rule R66). -/
theorem decodeHeader_eq_ok_iff (hd : Header) (p : Nibble × Bool) :
    decodeHeader hd = .ok p ↔ hd.toNat ∈ legalHeaders ∧ p = (opField hd, vField hd) := by
  have hV : (vField hd && !usesV (opField hd)) = true ↔
      ¬ (hd.toNat / 16 % 2 = 1 → hd.toNat % 16 ∈ [0x7, 0xA, 0xC]) := by
    rw [Bool.and_eq_true, Bool.not_eq_true', ← Bool.not_eq_true, usesV_iff, opField_toNat, ← vField_toNat,
      Bool.toNat_eq_one, Classical.not_imp]
  rw [mem_legalHeaders_iff, ← rsvField_eq_zero_iff]
  unfold decodeHeader
  split
  next hrsv => exact iff_of_false nofun fun h => hrsv h.1.1
  next hrsv =>
    split
    next hv => exact iff_of_false nofun fun h => hV.1 hv h.1.2
    next hv =>
      rw [Except.ok.injEq, and_iff_right ⟨not_not.1 hrsv, not_not.1 (mt hV.2 hv)⟩, eq_comm]

theorem decode_of_decodeHeader {hd : Header} {op : Nibble} {v : Bool} (h : decodeHeader hd = .ok (op, v))
    (a : OperandRecord c) : decode ⟨hd, a⟩ = .ok (instrOf op v a) := by
  simp only [decode, h]

theorem decode_of_headerError {hd : Header} {e : Reject} (h : decodeHeader hd = .error e)
    (a : OperandRecord c) : decode ⟨hd, a⟩ = .error e := by
  simp only [decode, h]

/-- A command with a legal header decodes, whatever the operands are. -/
theorem decode_of_legal {hd : Header} (h : hd.toNat ∈ legalHeaders) (a : OperandRecord c) :
    decode ⟨hd, a⟩ = .ok (instrOf (opField hd) (vField hd) a) :=
  decode_of_decodeHeader ((decodeHeader_eq_ok_iff hd _).2 ⟨h, rfl⟩) a

/-- A command with any other header is refused. -/
theorem decode_of_illegal {cmd : Command c} (h : cmd.hd.toNat ∉ legalHeaders) :
    ∃ e, decode cmd = .error e := by
  match hd : decodeHeader cmd.hd with
  | .error e => exact ⟨e, decode_of_headerError hd cmd.args⟩
  | .ok p => exact absurd ((decodeHeader_eq_ok_iff _ p).1 hd).1 h

/-- What decodes has a legal header, and is the command of its OP and V fields. -/
theorem legal_of_decode {cmd : Command c} {i : Instr} (h : decode cmd = .ok i) :
    cmd.hd.toNat ∈ legalHeaders ∧ i = instrOf (opField cmd.hd) (vField cmd.hd) cmd.args := by
  by_cases hlegal : cmd.hd.toNat ∈ legalHeaders
  · exact ⟨hlegal, Except.ok.inj (h.symm.trans (decode_of_legal hlegal cmd.args))⟩
  · obtain ⟨e, he⟩ := decode_of_illegal hlegal
    cases he.symm.trans h

/-! ### Decode of encode -/

/-- The fields `encodeArgs` fills are read back at their full width (rules R63, R69). -/
theorem instrOf_encodeArgs {i : Instr} (h : i.wellFormed c = true) :
    instrOf (opcodeOf i) (immediateOf i) (encodeArgs c i) = i := by
  have hCW : 1 ≤ c.CW := Nat.le_of_succ_le c.CW_two
  have read : ∀ {x y : Int}, (fitsSigned c.CW x && fitsSigned c.CW y) = true →
      (BitVec.ofInt c.CW x).toInt = x ∧ (BitVec.ofInt c.CW y).toInt = y := fun hxy =>
    have ⟨hx, hy⟩ := Bool.and_eq_true_iff.1 hxy
    ⟨toInt_ofInt_of_fits hCW hx, toInt_ofInt_of_fits hCW hy⟩
  cases i with
  | nop | step | rdstat => rfl
  | toidx x y => exact congr_arg₂ Instr.toidx (read h).1 (read h).2
  | getXY x y => exact congr_arg₂ Instr.getXY (read h).1 (read h).2
  | setaXY x y => exact congr_arg₂ Instr.setaXY (read h).1 (read h).2
  | setdXY x y => exact congr_arg₂ Instr.setdXY (read h).1 (read h).2
  | setsXY x y v => exact congr_arg₂ (Instr.setsXY · · v) (read h).1 (read h).2
  | count x y => exact congr_arg₂ Instr.count (read h).1 (read h).2
  | fromidx n => exact congrArg Instr.fromidx (toNat_ofNat_of_fits h)
  | getI n => exact congrArg Instr.getI (toNat_ofNat_of_fits h)
  | setaI n => exact congrArg Instr.setaI (toNat_ofNat_of_fits h)
  | setdI n => exact congrArg Instr.setdI (toNat_ofNat_of_fits h)
  | setsI n v => exact congrArg (Instr.setsI · v) (toNat_ofNat_of_fits h)
  | rule e n => exact congrArg (Instr.rule e) (toNat_ofNat_of_fits h)
  | seed ax ay pid =>
    have ⟨hxy, hpid⟩ := Bool.and_eq_true_iff.1 h
    show Instr.seed (BitVec.ofInt c.CW ax).toInt (BitVec.ofInt c.CW ay).toInt (BitVec.ofNat 4 pid).toNat = _
    rw [(read hxy).1, (read hxy).2, toNat_ofNat_of_fits hpid]

theorem decode_encode {i : Instr} (h : i.wellFormed c = true) : decode (encode c i) = .ok i := by
  rw [encode, decode_of_decodeHeader (decodeHeader_encodeHeader i), instrOf_encodeArgs h]

/-- Settles O7: the header by `decodeHeader_encodeHeader`, the operands by `instrOf_encodeArgs`. -/
theorem decodeOfEncodeIsTheCommand : Obligations.DecodeOfEncodeIsTheCommand := fun _ _ h => decode_encode h

/-- Settles O8: an accepted header is its fields put together, which is how the encoder makes one. -/
theorem encodeOfDecodeKeepsTheHeader : Obligations.EncodeOfDecodeKeepsTheHeader := by
  intro c cmd i h
  obtain ⟨hlegal, rfl⟩ := legal_of_decode h
  have hwf := wellFormed_instrOf (opField cmd.hd) (vField cmd.hd) cmd.args
  obtain ⟨hhd, hv⟩ := header_of_decodeHeader _ _ _ ((decodeHeader_eq_ok_iff _ _).2 ⟨hlegal, rfl⟩)
  refine ⟨hwf, ?_, decode_encode hwf⟩
  rw [encode, encodeHeader, immediateOf_instrOf _ _ _ hv, opcodeOf_instrOf]
  exact hhd.symm

/-! ### What a command reads -/

/-- The record with every field the operation does not read at 0 (rule R61). -/
def usedArgs (op : Nibble) (a : OperandRecord c) : OperandRecord c where
  opx := if readsXY op = true then a.opx else 0
  opy := if readsXY op = true then a.opy else 0
  opi := if readsI op = true then a.opi else 0
  ops := if op = 0xC then a.ops else 0
  opp := if op = 0xE then a.opp else 0

/-- An operation reads no field but its own. -/
theorem instrOf_usedArgs (op : Nibble) (v : Bool) (a : OperandRecord c) :
    instrOf op v (usedArgs op a) = instrOf op v a := by
  rcases nibble_cases op with h | h | h | h | h | h | h | h | h | h | h | h | h | h | h | h <;>
    subst h <;> rfl

theorem usedArgs_congr {op : Nibble} {a a' : OperandRecord c}
    (hxy : readsXY op = true → a.opx = a'.opx ∧ a.opy = a'.opy) (hi : readsI op = true → a.opi = a'.opi)
    (hs : op = 0xC → a.ops = a'.ops) (hp : op = 0xE → a.opp = a'.opp) : usedArgs op a = usedArgs op a' := by
  simp only [usedArgs, OperandRecord.mk.injEq]
  exact ⟨if_ctx_congr .rfl (fun h => (hxy h).1) fun _ => rfl,
    if_ctx_congr .rfl (fun h => (hxy h).2) fun _ => rfl, if_ctx_congr .rfl hi fun _ => rfl,
    if_ctx_congr .rfl hs fun _ => rfl, if_ctx_congr .rfl hp fun _ => rfl⟩

/-- Settles O9: the header decides the operation, and the records agree on what that operation reads. -/
theorem unusedOperandFieldsAreIgnored : Obligations.UnusedOperandFieldsAreIgnored := by
  intro c hd a a' hxy hi hs hp
  match h : decodeHeader hd with
  | .error e => rw [decode_of_headerError h, decode_of_headerError h]
  | .ok p =>
    have hlegal := ((decodeHeader_eq_ok_iff hd p).1 h).1
    rw [decode_of_legal hlegal, decode_of_legal hlegal, ← instrOf_usedArgs _ _ a, usedArgs_congr hxy hi hs hp,
      instrOf_usedArgs]

/-! ### The opcode map -/

/-- Settles O4: each header's operation and immediate are computed, and the operands are read as they stand. -/
theorem legalHeadersSelectTheirCommands : Obligations.LegalHeadersSelectTheirCommands := by
  intro c a
  simp only [Machine.sextValue_eq_toInt]
  and_intros <;> exact decode_of_legal (by decide) a

/-- Settles O5, by evaluating the ten words. -/
theorem tableWordsDecode : Obligations.TableWordsDecode := by
  unfold Obligations.TableWordsDecode
  decide

end Sys2Proof

namespace Sys2Proof.Machine

/-- A header that is not legal raises ILLEGAL_CMD, whatever the operands are (rule R162). -/
theorem step_illegal {c : Config} {m : Block c} {q : Issuer c} {cmd : Command c} {rest : List (Command c)}
    (hp : q.pending = cmd :: rest) (h : cmd.hd.toNat ∉ legalHeaders) :
    step ⟨c, m, q⟩ = faulted m { q with pending := rest } 1 := by
  obtain ⟨e, hd⟩ := decode_of_illegal h
  rw [step_perform hp, perform_illegal hd]
  rfl

/-- Settles O6: `decodeHeader_eq_ok_iff` for a legal header, `step_illegal` for any other. -/
theorem illegalHeadersFault : Obligations.IllegalHeadersFault := by
  refine fun c hd a => ⟨mem_legalHeaders_iff _, fun h => ?_, fun h m q rest hp => step_illegal hp h⟩
  have hok := (decodeHeader_eq_ok_iff hd _).2 ⟨h, rfl⟩
  exact ⟨_, _, hok, opField_toNat hd, vField_toNat hd, decode_of_decodeHeader hok a⟩

end Sys2Proof.Machine
end

section
/-!
The response record (rule R64): which fields each command writes, and their ranges.
-/

namespace Sys2Proof.Machine

variable {c : Config}

/-- A response in which the command's rule wrote only its own fields, each in its range (rule R64). -/
structure LegalResponse (i : Instr) (r : Response c) : Prop where
  fault_only : r.status ≠ 0 → r = { status := r.status }
  rv : opcodeOf i ∉ [(0x3 : Nibble), 0x4, 0xC] → r.rv = 0
  ridx : opcodeOf i ≠ 0x1 → r.ridx = 0
  rxy : opcodeOf i ≠ 0x2 → r.rx = 0 ∧ r.ry = 0
  rs : opcodeOf i ≠ 0xB → r.rs = 0
  stat : opcodeOf i ≠ 0xF → r.ract = 0 ∧ r.rflt = 0
  status_le : r.status.toNat ≤ 3
  ridx_lt : r.ridx.toNat < c.N
  rx_lt : r.rx.toNat < c.W
  ry_lt : r.ry.toNat < c.H
  rs_le : r.rs.toNat ≤ 8

/-- A command that writes no field but STATUS. -/
theorem legalResponse_status (i : Instr) {code : Nibble} (h : code.toNat ≤ 3) :
    LegalResponse i ({ status := code } : Response c) where
  fault_only _ := rfl
  rv _ := rfl
  ridx _ := rfl
  rxy _ := ⟨rfl, rfl⟩
  rs _ := rfl
  stat _ := ⟨rfl, rfl⟩
  status_le := h
  ridx_lt := c.N_pos
  rx_lt := c.W_pos
  ry_lt := c.H_pos
  rs_le := Nat.zero_le 8

theorem legalResponse_empty (i : Instr) : LegalResponse i ({} : Response c) :=
  legalResponse_status i (Nat.zero_le 3)

theorem legalResponse_rv {i : Instr} (h : opcodeOf i ∈ [(0x3 : Nibble), 0x4, 0xC]) (b : BitVec 1) :
    LegalResponse i ({ rv := b } : Response c) :=
  { legalResponse_empty i with
    fault_only := fun hs => absurd rfl hs
    rv := fun hi => absurd h hi }

/-- An index-addressed command answers as it would, or faults. -/
theorem legalResponse_withIndex {i : Instr} (m : Block c) (n : Nat) {r : Result c}
    (h : n < c.N → LegalResponse i r.2) : LegalResponse i (withIndex m n r).2 := by
  rcases Nat.lt_or_ge n c.N with hn | hn
  · rw [withIndex_of_lt hn]
    exact h hn
  · rw [withIndex_of_le hn]
    exact legalResponse_status i (faultCode_legal _)

/-- A number put in a field reads back as no more than the number. -/
theorem toNat_ofNat_le (w n : Nat) : (BitVec.ofNat w n).toNat ≤ n := by
  rw [BitVec.toNat_ofNat]
  exact Nat.mod_le _ _

theorem legalResponse_toidx (x y : Int) (m : Block c) : LegalResponse (.toidx x y) (toidx x y m).2 :=
  { legalResponse_empty _ with
    fault_only := fun hs => absurd rfl hs
    ridx := fun hi => absurd rfl hi
    ridx_lt := (toNat_ofNat_le _ _).trans_lt (toIndex_lt c x y) }

theorem legalResponse_fromidx (n : Nat) (m : Block c) : LegalResponse (.fromidx n) (fromidx n m).2 :=
  legalResponse_withIndex m n fun hn =>
    { legalResponse_empty _ with
      fault_only := fun hs => absurd rfl hs
      rxy := fun hi => absurd rfl hi
      rx_lt := (toNat_ofNat_le _ _).trans_lt (fromIndex_fst_lt c n)
      ry_lt := (toNat_ofNat_le _ _).trans_lt (fromIndex_snd_lt c hn) }

theorem legalResponse_count (x y : Int) (m : Block c) : LegalResponse (.count x y) (count x y m).2 :=
  { legalResponse_empty _ with
    fault_only := fun hs => absurd rfl hs
    rs := fun hi => absurd rfl hi
    rs_le := (toNat_ofNat_le _ _).trans (countLive_le m m.act x y) }

theorem legalResponse_rdstat (m : Block c) : LegalResponse .rdstat (rdstat m).2 :=
  { legalResponse_empty _ with
    fault_only := fun hs => absurd rfl hs
    stat := fun hi => absurd rfl hi }

theorem legalResponse_seed (ax ay : Int) (pid : Nat) (m : Block c) :
    LegalResponse (.seed ax ay pid) (seed ax ay pid m).2 := by
  unfold seed
  split
  · exact legalResponse_status _ (faultCode_legal _)
  · exact legalResponse_empty _

/-- `exec` is the meaning of the command, its response added to the host's. -/
theorem exec_eq_answered (i : Instr) (m : Block c) (q : Issuer c) :
    exec i ⟨c, m, q⟩ = answered (meaning i m).1 q (meaning i m).2 := exec_eq i ⟨c, m, q⟩

/-- Every command's response is legal. -/
theorem legalResponse_meaning (i : Instr) (m : Block c) : LegalResponse i (meaning i m).2 := by
  cases i with
  | toidx x y => exact legalResponse_toidx x y m
  | fromidx n => exact legalResponse_fromidx n m
  | getXY | rule => exact legalResponse_rv (by simp [opcodeOf]) _
  | getI n => exact legalResponse_withIndex m n fun _ => legalResponse_rv (by simp [opcodeOf]) _
  | setaI n | setdI n | setsI n _ => exact legalResponse_withIndex m n fun _ => legalResponse_empty _
  | count x y => exact legalResponse_count x y m
  | seed ax ay pid => exact legalResponse_seed ax ay pid m
  | rdstat => exact legalResponse_rdstat m
  | nop | setaXY | setdXY | setsXY | step => exact legalResponse_empty _

/-- Settles O41: `exec` ends with the command's meaning, whose response is legal. -/
theorem everyCommandReturnsOneResponse : Obligations.EveryCommandReturnsOneResponse := by
  intro c m i
  have h := legalResponse_meaning i m
  exact ⟨_, _, exec_eq_answered i m, h.fault_only, h.rv, h.ridx, h.rxy, h.rs, h.stat, h.status_le, h.ridx_lt,
    h.rx_lt, h.ry_lt, h.rs_le⟩

end Sys2Proof.Machine
end

section
/-!
The assembler (30_encoding.md section 3): what it makes of a list of commands decodes to them, and SEEDL writes
what SEED writes.
-/

namespace Sys2Proof.Machine

variable {c : Config}

/-- The assembler makes commands only of instructions that fit, and each decodes to its own. -/
theorem map_decode_of_assembleInstrs {is : List Instr} {cmds : List (Command c)}
    (h : assembleInstrs c is = some cmds) : cmds.map decode = is.map .ok := by
  induction is generalizing cmds with
  | nil =>
    cases h
    rfl
  | cons i is ih =>
    obtain ⟨hwf, h⟩ := Option.ite_none_right_eq_some.1 h
    obtain ⟨rest, hrest, rfl⟩ := Option.map_eq_some_iff.1 h
    rw [List.map_cons, List.map_cons, decode_encode hwf, ih hrest]

/-- Settles O58: the lines are expanded, and the expansion is assembled. -/
theorem assembledLinesDecodeToTheirCommands : Obligations.AssembledLinesDecodeToTheirCommands :=
  fun _ _ _ h => map_decode_of_assembleInstrs h

/-! ### SEEDL -/

/-- SETA.XY of a coordinate wrapped beforehand (rules R81, R97). -/
theorem exec_setaXY_wrap (m : Block c) (q : Issuer c) (x y : Int) :
    exec (.setaXY (wrap x c.W) (wrap y c.H)) ⟨c, m, q⟩ =
      .next ⟨c, setAlive m m.act (toIndex c x y), q.receive {}⟩ := by
  rw [← toIndex_wrap c x y]
  rfl

/-- The commands of SEEDL seed the pattern it lists. -/
theorem execAll_seedL (ax ay : Int) (pat : Pattern) (m : Block c) (q : Issuer c) :
    ∃ q', execAll (expandLine c (.seedL ax ay pat)) ⟨c, m, q⟩ =
      .next ⟨c, seedPattern m m.act ax ay pat, q'⟩ := by
  induction pat generalizing m q with
  | nil => exact ⟨q, rfl⟩
  | cons d pat ih =>
    obtain ⟨q', hrest⟩ := ih (setAlive m m.act (toIndex c (ax + d.1) (ay + d.2))) (q.receive {})
    rw [setAlive, setState_act] at hrest
    exact ⟨q', (execAll_cons (exec_setaXY_wrap m q _ _)).trans hrest⟩

/-- SEED of a pattern of the table (rule R142). -/
theorem exec_seed_of_lt (m : Block c) (q : Issuer c) (ax ay : Int) {pid : Nat} (h : pid < c.PAT.length) :
    exec (.seed ax ay pid) ⟨c, m, q⟩ = answered (seedPattern m m.act ax ay c.PAT[pid]) q {} := by
  have hpat : patternOf c pid = some c.PAT[pid] := List.getElem?_eq_getElem h
  rw [exec_eq_answered]
  simp only [meaning, seed, hpat]

/-- Settles O60: both leave the block `seedPattern` makes of the pattern. -/
theorem seedlWritesWhatSeedWrites : Obligations.SeedlWritesWhatSeedWrites := by
  intro c m q ax ay pid h
  obtain ⟨q', hseedl⟩ := execAll_seedL ax ay c.PAT[pid] m q
  exact ⟨_, _, q', hseedl, exec_seed_of_lt m q ax ay h, fun _ => rfl, rfl, rfl⟩

end Sys2Proof.Machine
end

section
/-!
The indexing functions and the commands TOIDX and FROMIDX (41_indexing.md sections 1 and 2).
-/

namespace Sys2Proof.Machine

variable {c : Config}

/-! ### The functions -/

/-- The index formula on the integers (rule R80). -/
theorem cast_toIndex (c : Config) (x y : Int) : (toIndex c x y : Int) = y % c.H * c.W + x % c.W := by
  rw [toIndex, Nat.cast_add, Nat.cast_mul, cast_wrap y c.H_pos, cast_wrap x c.W_pos]

/-- Settles O10: `cast_toIndex` and `toIndex_lt`; reducing a coordinate and going around the torus leave what
it wraps to. -/
theorem toIndexWrapsIntoTheGrid : Obligations.ToIndexWrapsIntoTheGrid :=
  fun c x y => ⟨cast_toIndex c x y, toIndex_lt c x y,
    toIndex_congr c (wrap_emod x c.W).symm (wrap_emod y c.H).symm,
    fun k l => toIndex_congr c (wrap_add_mul x k c.W) (wrap_add_mul y l c.H)⟩

/-- Settles O11: `fromIndex` is a two-sided inverse of `toIndex` between the grid and the indices. -/
theorem indexingFunctionsAreInverse : Obligations.IndexingFunctionsAreInverse := by
  refine fun c => ⟨fun i hi => toIndex_fromIndex c hi, fromIndex_toIndex c, ?_⟩
  refine Set.InvOn.bijOn (f' := fromIndex c) ⟨?_, fun i hi => toIndex_fromIndex c hi⟩
    (fun p _ => toIndex_lt c p.1 p.2) fun i hi => ⟨fromIndex_fst_lt c i, fromIndex_snd_lt c hi⟩
  rintro ⟨x, y⟩ ⟨hx, hy⟩
  exact (fromIndex_toIndex c x y).trans (congr_arg₂ Prod.mk (wrap_of_lt hx) (wrap_of_lt hy))

/-! ### The commands -/

/-- A legal header selects the command of its operation and immediate. -/
theorem selects_of_legal {hd : Header} (h : hd.toNat ∈ legalHeaders) :
    Selects c hd fun a => instrOf (opField hd) (vField hd) a := fun a => decode_of_legal h a

/-- An index-addressed command, its index naming no cell, is the fault IDX_RANGE and nothing else (rule R91). -/
theorem answered_withIndex_of_le {i : Nat} (h : c.N ≤ i) (m : Block c) (q : Issuer c) (r : Result c) :
    answered (withIndex m i r).1 q (withIndex m i r).2 = faulted m q 2 := by
  rw [withIndex_of_le h]
  rfl

/-- Settles O12: RIDX is wide enough for every cell index, so it reads back as the index. -/
theorem toidxAnswersTheCellIndex : Obligations.ToidxAnswersTheCellIndex := by
  intro c
  constructor
  · simp only [sextValue_eq_toInt]
    exact selects_of_legal (by decide)
  · intro m x y
    have hr : (BitVec.ofNat c.IW (toIndex c x y)).toNat = toIndex c x y :=
      toNat_ofNat_of_fits (decide_eq_true (c.lt_two_pow_IW (toIndex_lt c x y)))
    refine ⟨_, exec_eq_answered (.toidx x y) m, ?_⟩
    rw [hr]
    exact ⟨cast_toIndex c x y, toIndex_lt c x y⟩

/-- Settles O13: of an index below `N`, RX and RY are wide enough for the coordinate, which lies in the grid. -/
theorem fromidxAnswersTheCoordinate : Obligations.FromidxAnswersTheCoordinate := by
  refine fun c => ⟨selects_of_legal (by decide), fun m i => ⟨fun hi => ?_, fun hi q => ?_⟩⟩
  · have hx : i % c.W < c.W := fromIndex_fst_lt c i
    have hy : i / c.W < c.H := fromIndex_snd_lt c hi
    refine ⟨BitVec.ofNat c.XW (i % c.W), BitVec.ofNat c.YW (i / c.W), fun q => ?_, ?_⟩
    · rw [exec_eq_answered, meaning, fromidx, withIndex_of_lt hi]
      rfl
    · rw [toNat_ofNat_of_fits (decide_eq_true (c.lt_two_pow_XW hx)),
        toNat_ofNat_of_fits (decide_eq_true (c.lt_two_pow_YW hy))]
      exact ⟨rfl, rfl, hx, hy⟩
  · rw [exec_eq_answered]
    exact answered_withIndex_of_le hi m q _

end Sys2Proof.Machine
end

section
/-!
STEP on the unrolled torus: the active buffer read at every integer coordinate is a picture on the plane, and a
STEP makes its next generation of plane Life (rules R84, R87, R110, R124).  The shifts of the torus and the
windows of the plane are statements about pictures.
-/

namespace Sys2Proof.Machine

variable {c : Config}

/-! ### Plane Life reads a point and its eight neighbours -/

/-- Two pictures alike around a point each, the point itself included, are alike there in the next
generation. -/
theorem planeNext_congr {f g : Int → Int → Bool} {x y x' y' : Int}
    (h : ∀ d ∈ (0, 0) :: mooreOffsets, f (x + d.1) (y + d.2) = g (x' + d.1) (y' + d.2)) :
    planeNext f x y = planeNext g x' y' := by
  obtain ⟨hself, hnbrs⟩ := List.forall_mem_cons.1 h
  have hcount : planeCount f x y = planeCount g x' y' :=
    congrArg List.sum (List.map_congr_left fun d hd => congrArg Bool.toNat (hnbrs d hd))
  simp only [add_zero] at hself
  rw [planeNext, planeNext, hself, hcount]

/-- A neighbour is one cell away at most along each axis (rule R110). -/
theorem mooreOffset_bounds : ∀ d ∈ (0, 0) :: mooreOffsets, -1 ≤ d.1 ∧ d.1 ≤ 1 ∧ -1 ≤ d.2 ∧ d.2 ≤ 1 := by
  decide

/-! ### The unrolled torus -/

/-- The active buffer as a picture on the plane, repeated every `W` columns and every `H` rows (rule R87). -/
def unrolled (m : Block c) (x y : Int) : Bool := getState m m.act (toIndex c x y)

/-- The count on the torus is the plane's count of the unrolled picture (rule R110). -/
theorem planeCount_unrolled (m : Block c) (x y : Int) :
    planeCount (unrolled m) x y = countLive m m.act x y := rfl

/-- STEP is plane Life on the unrolled picture (rule R124). -/
theorem unrolled_step {m m' : Block c} {q q' : Issuer c} (hm : m.Inv)
    (h : exec .step ⟨c, m, q⟩ = .next ⟨c, m', q'⟩) (x y : Int) :
    unrolled m' x y = planeNext (unrolled m) x y := by
  rw [planeNext, planeCount_unrolled]
  exact getState_of_step hm h x y

/-- Settles O28: both unrolled pictures step by plane Life, which reads the same neighbourhood on either side of
the shift. -/
theorem stepCommutesWithTorusShifts : Obligations.StepCommutesWithTorusShifts := by
  intro c m n m' n' p q p' q' a b hm hn hshift hstep hstep' x y
  calc unrolled n' (x + a) (y + b) = planeNext (unrolled n) (x + a) (y + b) := unrolled_step hn hstep' _ _
    _ = planeNext (unrolled m) x y := planeNext_congr fun d _ => by
        rw [add_right_comm x, add_right_comm y]
        exact hshift _ _
    _ = unrolled m' x y := (unrolled_step hm hstep x y).symm

/-! ### A window of the plane -/

/-- A coordinate of a window or one cell outside it that wraps like an inner coordinate of the window is
that coordinate. -/
theorem eq_of_wrap_eq_inner {u v x0 : Int} {n : Nat} (hu : x0 - 1 ≤ u) (hu' : u ≤ x0 + n)
    (hv : x0 + 1 ≤ v) (hv' : v + 1 < x0 + n) (h : wrap u n = wrap v n) : u = v :=
  wrap_inj_window (x0 := min u v) (by omega) (by omega) (by omega) (by omega) h

/-- The unrolled torus shows the plane's picture on a window and one cell around it: what wraps onto the
window's edge there is dead, as the picture is outside the window. -/
theorem unrolled_eq_of_shows {m : Block c} {live : Int → Int → Bool} {x0 y0 : Int}
    (hinner : ∀ x y, live x y = true →
      x0 + 1 ≤ x ∧ x + 1 < x0 + c.W ∧ y0 + 1 ≤ y ∧ y + 1 < y0 + c.H)
    (hshows : Shows m live x0 y0) {u v : Int} (hu : x0 - 1 ≤ u) (hu' : u ≤ x0 + c.W)
    (hv : y0 - 1 ≤ v) (hv' : v ≤ y0 + c.H) : unrolled m u v = live u v := by
  obtain ⟨x, hx, hx', hxu⟩ := exists_window u x0 c.W_pos
  obtain ⟨y, hy, hy', hyv⟩ := exists_window v y0 c.H_pos
  have hread : unrolled m u v = live x y := by
    rw [unrolled, ← toIndex_congr c hxu hyv, hshows x y hx hx' hy hy']
  rw [hread, Bool.eq_iff_iff]
  constructor
  · intro hlive
    obtain ⟨h1, h2, h3, h4⟩ := hinner x y hlive
    rwa [eq_of_wrap_eq_inner hu hu' h1 h2 hxu.symm, eq_of_wrap_eq_inner hv hv' h3 h4 hyv.symm]
  · intro hlive
    obtain ⟨h1, h2, h3, h4⟩ := hinner u v hlive
    rwa [eq_of_wrap_eq_inner (by omega) (by omega) h1 h2 hxu,
      eq_of_wrap_eq_inner (by omega) (by omega) h3 h4 hyv]

/-- Settles O29: around every point of the window the unrolled torus is the plane's picture, so both have
the same next generation there. -/
theorem stepIsPlaneLifeInsideAWindow : Obligations.StepIsPlaneLifeInsideAWindow := by
  intro c m m' q q' live x0 y0 hm hinner hshows hstep x y hx hx' hy hy'
  refine (unrolled_step hm hstep x y).trans (planeNext_congr fun d hd => ?_)
  obtain ⟨h1, h2, h3, h4⟩ := mooreOffset_bounds d hd
  exact unrolled_eq_of_shows hinner hshows (by omega) (by omega) (by omega) (by omega)

end Sys2Proof.Machine
end

section
/-!
The storage commands (42_storage.md): the index check, the laws of a cell write, and the commands that read and
write one cell.
-/

namespace Sys2Proof.Machine

variable {c : Config}

/-! ### The index check -/

/-- A command that says OK leaves `FLT` (rule R28). -/
theorem meaning_flt_of_ok {i : Instr} {m : Block c} (h : (meaning i m).2.status = 0) :
    (meaning i m).1.flt = m.flt := by
  rw [effect_flt (meaning_effect i m), h]
  exact ite_eq_right_iff.2 Eq.symm

/-- A command behind an index check, its index naming no cell, is the fault IDX_RANGE and nothing else (rules R91,
R163). -/
theorem exec_of_withIndex_of_le {j : Instr} {m : Block c} {i : Nat} {r : Result c}
    (h : meaning j m = withIndex m i r) (hi : c.N ≤ i) (q : Issuer c) :
    exec j ⟨c, m, q⟩ = faulted m q 2 := by
  rw [exec_eq_answered, h]
  exact answered_withIndex_of_le hi m q r

/-- An index-addressed command is its index check and then a result that says OK (rule R91). -/
theorem meaning_of_indexed (m : Block c) {i : Nat} {v : Bool} {j : Instr}
    (hj : j ∈ [Instr.fromidx i, .getI i, .setaI i, .setdI i, .setsI i v]) :
    ∃ r : Result c, meaning j m = withIndex m i r ∧ r.2.status = 0 := by
  simp only [List.mem_cons, List.not_mem_nil, or_false] at hj
  rcases hj with rfl | rfl | rfl | rfl | rfl <;> exact ⟨_, rfl, rfl⟩

/-- SEED says OK, or its pattern id names no pattern and it says PAT_RANGE (rule R142). -/
theorem seed_status (x y : Int) (pid : Nat) (m : Block c) :
    (seed x y pid m).2.status = 0 ∨ c.NPAT ≤ pid ∧ (seed x y pid m).2.status = 3 := by
  unfold seed
  split
  next hnone => exact .inr ⟨List.getElem?_eq_none_iff.1 hnone, rfl⟩
  next => exact .inl rfl

/-- A coordinate-addressed command says OK, but for SEED of a pattern the table does not have (rules R91,
R142). -/
theorem status_of_coordinate (m : Block c) {x y : Int} {v : Bool} {pid : Nat} {j : Instr}
    (hj : j ∈ [Instr.toidx x y, .getXY x y, .setaXY x y, .setdXY x y, .setsXY x y v, .count x y,
      .seed x y pid]) :
    (meaning j m).2.status = 0 ∨
      (j = .seed x y pid ∧ c.NPAT ≤ pid) ∧ (meaning j m).2.status = 3 := by
  simp only [List.mem_cons, List.not_mem_nil, or_false] at hj
  rcases hj with rfl | rfl | rfl | rfl | rfl | rfl | rfl
  iterate 6 · exact .inl rfl
  · exact (seed_status x y pid m).imp_right fun ⟨hpid, hs⟩ => ⟨⟨rfl, hpid⟩, hs⟩

/-- Settles O14: the index check decides the index-addressed commands, and of the others only SEED can fault,
with another code. -/
theorem onlyBadIndicesFaultIdxRange : Obligations.OnlyBadIndicesFaultIdxRange := by
  refine fun c m q => ⟨fun i v j hj => ?_, fun x y v pid j hj => ?_⟩
  · obtain ⟨r, hr, hok⟩ := meaning_of_indexed m hj
    refine ⟨fun hi => exec_of_withIndex_of_le hr hi q, fun hi => ?_⟩
    have hs : (meaning j m).2.status = 0 := by rw [hr, withIndex_of_lt hi, hok]
    exact ⟨_, _, exec_eq_answered j m q, meaning_flt_of_ok hs, hs⟩
  · refine ⟨_, _, exec_eq_answered j m q, ?_⟩
    rcases status_of_coordinate m hj with hs | ⟨⟨hseed, hpid⟩, hs⟩
    · exact ⟨by rw [hs]; decide, fun _ => ⟨meaning_flt_of_ok hs, hs⟩⟩
    · refine ⟨by rw [hs]; decide, fun hcase => ?_⟩
      rcases hcase with hne | hlt
      · exact absurd hseed (hne x y)
      · exact absurd hlt hpid.not_gt

/-! ### The laws of a cell write -/

/-- Settles O16: `getState_setState` is read after write and isolation, of padding bits too, which are bits past
the cells; `setState_setState` is the last write, and with one value twice idempotence. -/
theorem cellWritesAreIsolated : Obligations.CellWritesAreIsolated := by
  intro c m b i v w hwf0 hwf1 hi
  have hm : m.canonical := Fin.forall_fin_two.2 ⟨hwf0, hwf1⟩
  have hread := getState_setState (hm b).1 i v
  have hother : ∀ b' j, j ≠ i → getState (setState m b i v) b' j = getState m b' j :=
    fun b' j hj => (hread b' j).trans (if_neg fun h => hj h.2)
  refine ⟨fun j _ hj => hother b j hj, fun j _ => ?_, ?_, setState_setState hm b hi true true,
    setState_setState hm b hi false false, setState_setState hm b hi v w,
    fun b' j hj _ => hother b' j (hi.trans_le hj).ne'⟩
  · exact (hread _ j).trans (if_neg fun h => otherBuf_ne b h.1)
  · exact (hread b i).trans (if_pos ⟨rfl, rfl⟩)

/-! ### The commands -/

/-- A command that means one cell write of the active buffer completes and writes that cell alone (rule R92). -/
theorem exec_writes_one_cell {j : Instr} {m : Block c} {i : Nat} {v : Bool} (hm : m.Inv)
    (h : meaning j m = (setState m m.act i v, {})) :
    ∃ m', (∀ q, exec j ⟨c, m, q⟩ = answered m' q {}) ∧ WroteCell m m' m.act i v :=
  ⟨_, fun q => by rw [exec_eq_answered, h], wroteCell_setState hm m.act i v⟩

/-- Settles O18: each command means one cell write, at the index of its coordinate. -/
theorem setByCoordinateWritesOneCell : Obligations.SetByCoordinateWritesOneCell := by
  intro c
  simp only [sextValue_eq_toInt]
  refine ⟨selects_of_legal (by decide), selects_of_legal (by decide), selects_of_legal (by decide),
    selects_of_legal (by decide), fun m x y v hm => ?_⟩
  exact ⟨exec_writes_one_cell hm rfl, exec_writes_one_cell hm rfl, exec_writes_one_cell hm rfl⟩

/-- Settles O19: each command means one cell write behind the index check. -/
theorem setByIndexWritesOneCell : Obligations.SetByIndexWritesOneCell := by
  refine fun c => ⟨selects_of_legal (by decide), selects_of_legal (by decide), selects_of_legal (by decide),
    selects_of_legal (by decide), fun m i v hm => ⟨fun hi => ?_, fun hi => ?_⟩⟩
  · have hcheck : ∀ r : Result c, withIndex m i r = r := withIndex_of_lt hi
    exact ⟨exec_writes_one_cell hm (hcheck _), exec_writes_one_cell hm (hcheck _),
      exec_writes_one_cell hm (hcheck _)⟩
  · exact ⟨exec_of_withIndex_of_le rfl hi, exec_of_withIndex_of_le rfl hi, exec_of_withIndex_of_le rfl hi⟩

/-- Settles O17: a cell read is the bit of its word, behind the index check for GET.I. -/
theorem getAnswersTheActiveCell : Obligations.GetAnswersTheActiveCell := by
  intro c
  simp only [sextValue_eq_toInt]
  refine ⟨selects_of_legal (by decide), selects_of_legal (by decide), fun m q =>
    ⟨fun x y => exec_getXY m q (x, y), fun i hi => ?_, fun i hi => exec_of_withIndex_of_le rfl hi q⟩⟩
  rw [exec_eq_answered, meaning, getI, withIndex_of_lt hi]
  rfl

end Sys2Proof.Machine
end

section
/-!
The neighbour counter and COUNT (43_neighbor.md): the sum of rule R110 written out, and where its eight
positions fall on grids of each size.
-/

namespace Sys2Proof.Machine

variable {c : Config}

/-! ### The count as a sum -/

/-- The sum of rule R110 written out, row by row. -/
theorem countLive_eq_sum (m : Block c) (b : Fin 2) (x y : Int) :
    countLive m b x y =
      (getState m b (toIndex c (x - 1) (y - 1))).toNat + (getState m b (toIndex c x (y - 1))).toNat +
      (getState m b (toIndex c (x + 1) (y - 1))).toNat + (getState m b (toIndex c (x - 1) y)).toNat +
      (getState m b (toIndex c (x + 1) y)).toNat + (getState m b (toIndex c (x - 1) (y + 1))).toNat +
      (getState m b (toIndex c x (y + 1))).toNat + (getState m b (toIndex c (x + 1) (y + 1))).toNat := by
  simp only [countLive, mooreOffsets, List.map_cons, List.map_nil, List.sum_cons, List.sum_nil, add_zero,
    ← sub_eq_add_neg]
  omega

/-- Settles O21: the circuit's neighbour rows and columns are the wrapped neighbour coordinates (`wrap_pred`,
`wrap_succ`), so its terms are those of `countLive_eq_sum`. -/
theorem countEqualsItsCircuitForm : Obligations.CountEqualsItsCircuitForm := by
  intro c m b x y
  simp only [← wrap_pred _ c.W_pos, ← wrap_succ _ c.W_pos, ← wrap_pred _ c.H_pos, ← wrap_succ _ c.H_pos]
  exact countLive_eq_sum m b x y

/-! ### Where the eight positions fall -/

/-- On a grid of at least 3x3 the cell and its eight neighbours are nine cells (rule R111). -/
theorem nodup_neighbourhood (hW : 3 ≤ c.W) (hH : 3 ≤ c.H) (x y : Int) :
    (((0, 0) :: mooreOffsets).map fun d => toIndex c (x + d.1) (y + d.2)).Nodup := by
  refine List.Nodup.map_on (fun d hd e he h => ?_) (by decide)
  obtain ⟨hx, hy⟩ := (toIndex_eq_iff c).1 h
  obtain ⟨hd1, hd1', hd2, hd2'⟩ := mooreOffset_bounds d hd
  obtain ⟨he1, he1', he2, he2'⟩ := mooreOffset_bounds e he
  have h1 := wrap_inj_window (x0 := x - 1) (by omega) (by omega) (by omega) (by omega) hx
  have h2 := wrap_inj_window (x0 := y - 1) (by omega) (by omega) (by omega) (by omega) hy
  exact Prod.ext (add_left_cancel h1) (add_left_cancel h2)

/-- Two offsets that differ by a multiple of the grid's length wrap to one row or column. -/
theorem wrap_add_eq_of_dvd {n : Nat} {d e : Int} (h : (n : Int) ∣ e - d) (v : Int) :
    wrap (v + d) n = wrap (v + e) n :=
  wrap_congr ((Int.modEq_iff_dvd.2 h).add_left v)

/-- Two column offsets that differ by a multiple of `W` name one cell. -/
theorem toIndex_add_left_of_dvd {d e : Int} (h : (c.W : Int) ∣ e - d) (x y : Int) :
    toIndex c (x + d) y = toIndex c (x + e) y :=
  toIndex_congr c (wrap_add_eq_of_dvd h x) rfl

/-- Two row offsets that differ by a multiple of `H` name one cell. -/
theorem toIndex_add_right_of_dvd {d e : Int} (h : (c.H : Int) ∣ e - d) (x y : Int) :
    toIndex c x (y + d) = toIndex c x (y + e) :=
  toIndex_congr c rfl (wrap_add_eq_of_dvd h y)

/-- On a grid of one cell all eight positions are that cell. -/
theorem countLive_of_one_cell (hW : c.W = 1) (hH : c.H = 1) (m : Block c) (b : Fin 2) (x y : Int) :
    countLive m b x y = 8 * (getState m b 0).toNat := by
  have hcell : ∀ u v : Int, toIndex c u v = 0 := fun u v => by
    have h := toIndex_lt c u v
    rwa [Config.N, hW, hH, Nat.lt_one_iff] at h
  rw [countLive_eq_sum]
  simp only [hcell]
  omega

/-- Settles O22: `nodup_neighbourhood` for 3x3 and above; on one or two columns (rows) the offsets that coincide
differ by a multiple of the length. -/
theorem coincidingNeighboursCountEachTime : Obligations.CoincidingNeighboursCountEachTime := by
  intro c m b x y
  refine ⟨by rw [List.map_map]; rfl, fun hW hH => ?_, fun hW dy => ?_, fun hW dy => ?_, fun hH dx => ?_,
    fun hH dx => ?_, fun hW hH => countLive_of_one_cell hW hH m b x y⟩
  · have h := List.nodup_cons.1 (nodup_neighbourhood hW hH x y)
    simp only [add_zero] at h
    exact h.symm
  · have hdvd : ∀ k : Int, (c.W : Int) ∣ k := by simp [hW]
    exact ⟨toIndex_add_left_of_dvd (hdvd _) _ _, toIndex_add_left_of_dvd (hdvd _) _ _⟩
  · exact toIndex_add_left_of_dvd (by rw [hW]; decide) _ _
  · have hdvd : ∀ k : Int, (c.H : Int) ∣ k := by simp [hH]
    exact ⟨toIndex_add_right_of_dvd (hdvd _) _ _, toIndex_add_right_of_dvd (hdvd _) _ _⟩
  · exact toIndex_add_right_of_dvd (by rw [hH]; decide) _ _

/-! ### The command -/

/-- Settles O23: a count is at most 8, so RS reads back as the count, which is the sum written out. -/
theorem countAnswersTheLiveNeighbours : Obligations.CountAnswersTheLiveNeighbours := by
  intro c
  refine ⟨?_, countLive_le, fun m x y => ?_⟩
  · simp only [sextValue_eq_toInt]
    exact selects_of_legal (by decide)
  · have hle := countLive_le m m.act x y
    have hr : (BitVec.ofNat 4 (countLive m m.act x y)).toNat = countLive m m.act x y :=
      toNat_ofNat_of_fits (decide_eq_true (Nat.lt_of_le_of_lt hle (by decide)))
    refine ⟨_, exec_eq_answered (.count x y) m, ?_⟩
    rw [hr]
    exact ⟨countLive_eq_sum m m.act x y, hle⟩

end Sys2Proof.Machine
end

section
/-!
The rule and the generation stepper (44_rule_step.md): RULE on every count, one generation as the one buffer that
holds every cell's next state, and the sweeps that make it, whatever their order and whoever does them.
-/

namespace Sys2Proof.Machine

variable {c : Config} {m : Block c}

/-! ### RULE -/

/-- The answer of RULE, as the bit of rule R120. -/
theorem ofBool_lifeRule (e : Bool) (n : Nat) :
    BitVec.ofBool (lifeRule e n) = if n = 3 ∨ (e = true ∧ n = 2) then 1 else 0 := by
  simp only [← lifeRule_iff]
  cases lifeRule e n <;> rfl

/-- Settles O24: RULE answers the bit of `lifeRule`, which is the same formula for every count (rule R121). -/
theorem ruleAnswersB3S23 : Obligations.RuleAnswersB3S23 := by
  refine fun c => ⟨selects_of_legal (by decide), selects_of_legal (by decide), fun m q e n => ?_⟩
  rw [exec_eq_answered, ← ofBool_lifeRule]
  rfl

/-! ### One generation -/

/-- A cell after one generation (rule R124). -/
theorem getState_act_stepGeneration (hm : m.Inv) {i : Nat} (hi : i < c.N) :
    getState (stepGeneration m) (stepGeneration m).act i = nextCell m i := by
  rw [stepGeneration_act, getState_stepGeneration (hm.rising _), if_pos hi]

/-- Settles O25: the block after STEP is `stepGeneration m`, and each clause is what its laws say of it. -/
theorem stepAdvancesOneGeneration : Obligations.StepAdvancesOneGeneration := by
  refine fun c => ⟨selects_of_legal (by decide), fun m hm =>
    ⟨stepGeneration m, exec_eq_answered .step m, ?_, fun i hi => ?_, stepGeneration_buf_act m,
      (inv_stepGeneration hm).padded _, stepGeneration_flt m⟩⟩
  · rw [stepGeneration_act, otherBuf_val]
  · rw [getState_act_stepGeneration hm hi]
    exact lifeRule_iff _ _

/-- A canonical future buffer that holds every cell's next state, its padding as it was, is the one of a
generation (rule R127). -/
theorem swapRoles_setBuf_eq_stepGeneration (hm : (m.buf (otherBuf m.act)).wf) {f : Memory c} (hf : f.wf)
    (hcells : ∀ i, i < c.N → cellRead f i = nextCell m i)
    (hpad : ∀ i, c.N ≤ i → cellRead f i = getState m (otherBuf m.act) i) :
    swapRoles (m.setBuf (otherBuf m.act) f) = stepGeneration m := by
  have hbuf : f = (stepGeneration m).buf (otherBuf m.act) := by
    refine Memory.ext_of_cellRead hf (wf_stepGeneration hm) fun i _ => ?_
    refine Eq.trans ?_ (getState_stepGeneration hm.1 i).symm
    split
    next hi => exact hcells i hi
    next hi => exact hpad i (Nat.le_of_not_lt hi)
  refine Block.ext_of_buf (fun b => ?_) (by simp) (by simp)
  rw [swapRoles_buf, setBuf_buf]
  rcases eq_or_eq_otherBuf m.act b with rfl | rfl
  · rw [if_neg (ne_otherBuf m.act), stepGeneration_buf_act]
  · rw [if_pos rfl, hbuf]

/-! ### The order of the cells, and the workers -/

/-- A sweep replaces the future buffer alone. -/
theorem setBuf_buf_sweep (m : Block c) (order : List Nat) :
    m.setBuf (otherBuf m.act) ((sweep m order).buf (otherBuf m.act)) = sweep m order := by
  unfold sweep
  rw [setBuf_buf_same]

/-- A sweep that visits every cell, in any order and any number of times, makes the next generation. -/
theorem swapRoles_sweep (hm : (m.buf (otherBuf m.act)).wf) {order : List Nat}
    (ho : ∀ i, i ∈ order ↔ i < c.N) : swapRoles (sweep m order) = stepGeneration m := by
  rw [← setBuf_buf_sweep]
  refine swapRoles_setBuf_eq_stepGeneration hm (wf_sweep hm fun i => (ho i).1) (fun i hi => ?_) fun i hi => ?_
  · exact (getState_sweep hm.1 order i).trans (if_pos ((ho i).2 hi))
  · exact (getState_sweep hm.1 order i).trans (if_neg fun h => hi.not_gt ((ho i).1 h))

/-- Settles O26: a permutation of the indices visits every cell. -/
theorem stepIsIndependentOfOrder : Obligations.StepIsIndependentOfOrder := by
  intro c m q order hwf0 hwf1 hperm
  have hm : m.canonical := Fin.forall_fin_two.2 ⟨hwf0, hwf1⟩
  rw [swapRoles_sweep (hm _) fun i => hperm.mem_iff.trans List.mem_range]
  exact exec_eq_answered .step m q

/-- A good sweep that has finished swaps to the next generation. -/
theorem Sweep.Good.swap_of_finished {d : WriteDiscipline} {g : Sweep c} (hg : g.Good d m)
    (hm : (m.buf (otherBuf m.act)).wf) (hfin : g.finished = true) : g.swap = some (stepGeneration m) := by
  rw [Sweep.swap, if_pos hfin, hg.start]
  exact congrArg some (swapRoles_setBuf_eq_stepGeneration hm hg.wf
    (fun i hi => (hg.cells i hi).2 (Sweep.not_toWrite_of_finished hfin i)) hg.padding)

/-- Settles O54: every schedule keeps a conforming sweep good, so once finished it holds the next generation. -/
theorem conformingWorkersRefineStep : Obligations.ConformingWorkersRefineStep := by
  intro c d ps m es hm hlegal hconf
  have hother := hm.canonical (otherBuf m.act)
  refine ⟨fun hfin => by rw [Sweep.swap, hfin]; rfl, fun hfin => ?_⟩
  exact ⟨_, ((good_startSweep hlegal hconf hother).run es).swap_of_finished hother hfin,
    exec_eq_answered .step m⟩

/-! ### Grids with every cell alike -/

/-- On a grid with every cell alike every offset position of a cell is alike: the rule sees no live neighbour of a
dead cell or eight of a live one, and both are dead next (rule R129). -/
theorem nextCell_of_uniform {v : Bool} (h : ∀ i, i < c.N → getState m m.act i = v) {i : Nat} (hi : i < c.N) :
    nextCell m i = false := by
  have hcount : ∀ x y, countLive m m.act x y = 8 * v.toNat := fun x y => by
    simp only [countLive_eq_sum, h _ (toIndex_lt c _ _)]
    omega
  rw [nextCell, h i hi, hcount]
  cases v <;> rfl

theorem dead_stepGeneration_of_uniform (hm : m.Inv) {v : Bool}
    (h : ∀ i, i < c.N → getState m m.act i = v) (i : Nat) (hi : i < c.N) :
    getState (stepGeneration m) (stepGeneration m).act i = false :=
  (getState_act_stepGeneration hm hi).trans (nextCell_of_uniform h hi)

/-- Any number of STEPs of a dead grid completes and leaves it dead. -/
theorem execAll_step_of_dead (n : Nat) (hm : m.Inv) (q : Issuer c)
    (h : ∀ i, i < c.N → getState m m.act i = false) :
    ∃ m' q', execAll (List.replicate n .step) ⟨c, m, q⟩ = .next ⟨c, m', q'⟩ ∧
      ∀ i, i < c.N → getState m' m'.act i = false := by
  induction n generalizing m q with
  | zero => exact ⟨m, q, rfl, h⟩
  | succ n ih =>
    rw [List.replicate_succ, execAll_cons (exec_step m q)]
    exact ih (inv_stepGeneration hm) _ (dead_stepGeneration_of_uniform hm h)

/-- Settles O27: both grids have every cell alike. -/
theorem deadGridStaysDeadAndFullGridDies : Obligations.DeadGridStaysDeadAndFullGridDies :=
  fun _ m q hm => ⟨fun hdead n => execAll_step_of_dead n hm q hdead,
    fun hfull => ⟨_, exec_eq_answered .step m q, dead_stepGeneration_of_uniform hm hfull⟩⟩

end Sys2Proof.Machine
end

section
/-!
Patterns on the torus: a pattern that keeps one cell away from the edges of a window of the grid's size lives as it
does on the plane, where one generation of it is a finite check.  The still life and the oscillator of
95_test_vectors.md S5 and S6.
-/

namespace Sys2Proof.Machine

variable {c : Config} {m : Block c} {ax ay ox oy : Int} {pat pat' : Pattern}

/-! ### A pattern on the plane -/

/-- The plane with exactly the cells of a pattern alive, anchored at `(ax, ay)`. -/
def plot (ax ay : Int) (pat : Pattern) (x y : Int) : Bool := decide ((x - ax, y - ay) ∈ pat)

theorem plot_iff {x y : Int} : plot ax ay pat x y = true ↔ ∃ d ∈ pat, ax + d.1 = x ∧ ay + d.2 = y := by
  rw [plot, decide_eq_true_eq]
  constructor
  · exact fun h => ⟨_, h, add_sub_cancel ax x, add_sub_cancel ay y⟩
  · rintro ⟨d, hd, rfl, rfl⟩
    simpa using hd

/-- The points of a pattern and their neighbours. -/
def around (pat : Pattern) : Pattern :=
  pat.flatMap fun d => ((0, 0) :: mooreOffsets).map fun e => (d.1 - e.1, d.2 - e.2)

/-- One generation of plane Life makes `pat'` of `pat`, looked up at every point that could be alive: no point is
that has no live cell among itself and its neighbours. -/
abbrev Becomes (pat pat' : Pattern) : Prop :=
  ∀ p ∈ around pat ++ pat', planeNext (plot 0 0 pat) p.1 p.2 = plot 0 0 pat' p.1 p.2

/-- A point away from every cell of the pattern is dead next. -/
theorem planeNext_plot_of_not_around {x y : Int} (h : (x, y) ∉ around pat) :
    planeNext (plot 0 0 pat) x y = false := by
  refine planeNext_congr (g := fun _ _ => false) (x' := x) (y' := y) fun e he => ?_
  rw [← Bool.not_eq_true, plot_iff]
  rintro ⟨d, hd, hx, hy⟩
  refine h (List.mem_flatMap.2 ⟨d, hd, List.mem_map.2 ⟨e, he, Prod.ext ?_ ?_⟩⟩) <;> simp only <;> omega

/-- The check at the points around the pattern settles the whole plane, from any anchor. -/
theorem planeNext_plot (h : Becomes pat pat') : planeNext (plot ax ay pat) = plot ax ay pat' := by
  funext x y
  have hanchor : planeNext (plot ax ay pat) x y = planeNext (plot 0 0 pat) (x - ax) (y - ay) :=
    planeNext_congr fun d _ => by simp only [plot, sub_zero, add_sub_right_comm]
  have hplot : plot ax ay pat' x y = plot 0 0 pat' (x - ax) (y - ay) := by simp only [plot, sub_zero]
  rw [hanchor, hplot]
  by_cases hp : (x - ax, y - ay) ∈ around pat ++ pat'
  · exact h _ hp
  · rw [List.mem_append, not_or] at hp
    rw [planeNext_plot_of_not_around hp.1]
    simpa [plot] using hp.2

/-! ### A pattern on the torus -/

/-- The pattern keeps one cell away from the edges of the `W × H` window at `(ox, oy)`, counted from its
anchor. -/
abbrev FitsIn (pat : Pattern) (ox oy : Int) (W H : Nat) : Prop :=
  ∀ d ∈ pat, ox + 1 ≤ d.1 ∧ d.1 + 1 < ox + W ∧ oy + 1 ≤ d.2 ∧ d.2 + 1 < oy + H

theorem FitsIn.mono {W H W' H' : Nat} (h : FitsIn pat ox oy W H) (hW : W ≤ W') (hH : H ≤ H') :
    FitsIn pat ox oy W' H' := fun d hd => by
  obtain ⟨h1, h2, h3, h4⟩ := h d hd
  exact ⟨h1, by omega, h3, by omega⟩

/-- Inside the window, the cells of the pattern on the torus are those on the plane. -/
theorem exists_toIndex_eq_iff_plot (hfit : FitsIn pat ox oy c.W c.H) {x y : Int} (hx : ax + ox ≤ x)
    (hx' : x < ax + ox + c.W) (hy : ay + oy ≤ y) (hy' : y < ay + oy + c.H) :
    (∃ d ∈ pat, toIndex c (ax + d.1) (ay + d.2) = toIndex c x y) ↔ plot ax ay pat x y = true := by
  rw [plot_iff]
  refine exists_congr fun d => and_congr_right fun hd => ⟨fun h => ?_, fun ⟨h1, h2⟩ => by rw [h1, h2]⟩
  obtain ⟨h1, h2, h3, h4⟩ := hfit d hd
  obtain ⟨hwx, hwy⟩ := (toIndex_eq_iff c).1 h
  exact ⟨wrap_inj_window (by omega) (by omega) hx hx' hwx, wrap_inj_window (by omega) (by omega) hy hy' hwy⟩

/-- The torus holds exactly the pattern when the window shows it. -/
theorem liveExactly_iff_shows (hfit : FitsIn pat ox oy c.W c.H) :
    LiveExactly m ax ay pat ↔ Shows m (plot ax ay pat) (ax + ox) (ay + oy) := by
  constructor
  · intro h x y hx hx' hy hy'
    rw [Bool.eq_iff_iff, h _ (toIndex_lt c x y), exists_toIndex_eq_iff_plot hfit hx hx' hy hy']
  · intro h i hi
    obtain ⟨x, hx, hx', hxi⟩ := exists_window (fromIndex c i).1 (ax + ox) c.W_pos
    obtain ⟨y, hy, hy', hyi⟩ := exists_window (fromIndex c i).2 (ay + oy) c.H_pos
    have hcell : toIndex c x y = i := (toIndex_congr c hxi hyi).trans (toIndex_fromIndex c hi)
    rw [← hcell, h x y hx hx' hy hy', exists_toIndex_eq_iff_plot hfit hx hx' hy hy']

/-- A pattern that fits the grid with room around it steps on the torus as on the plane. -/
theorem LiveExactly.stepGeneration (h : LiveExactly m ax ay pat) (hm : m.Inv) (hfit : FitsIn pat ox oy c.W c.H)
    (hfit' : FitsIn pat' ox oy c.W c.H) (hnext : Becomes pat pat') :
    LiveExactly (stepGeneration m) ax ay pat' := by
  rw [liveExactly_iff_shows hfit] at h
  rw [liveExactly_iff_shows hfit', ← planeNext_plot hnext]
  refine stepIsPlaneLifeInsideAWindow c m _ _ _ _ _ _ hm (fun x y hxy => ?_) h (exec_step m {})
  obtain ⟨d, hd, rfl, rfl⟩ := plot_iff.1 hxy
  obtain ⟨h1, h2, h3, h4⟩ := hfit d hd
  omega

/-- Settles O30: the square keeps one cell away from the edges of the 4x4 window one cell up and left of it. -/
theorem blockIsAStillLife : Obligations.BlockIsAStillLife := by
  intro c m q x y hm hW hH h
  have hfit : FitsIn [(0, 0), (1, 0), (0, 1), (1, 1)] (-1) (-1) c.W c.H :=
    FitsIn.mono (W := 4) (H := 4) (by decide) hW hH
  exact ⟨_, exec_eq_answered .step m q, h.stepGeneration hm hfit hfit (by decide)⟩

/-- Settles O31: both lines keep one cell away from the edges of the 5x5 window centred on the middle cell they
share. -/
theorem blinkerHasPeriodTwo : Obligations.BlinkerHasPeriodTwo := by
  intro c m q k r hm hW hH h
  have hrow : FitsIn [(0, 0), (1, 0), (2, 0)] (-1) (-2) c.W c.H :=
    FitsIn.mono (W := 5) (H := 5) (by decide) hW hH
  have hcol : FitsIn [(1, -1), (1, 0), (1, 1)] (-1) (-2) c.W c.H :=
    FitsIn.mono (W := 5) (H := 5) (by decide) hW hH
  have h' := h.stepGeneration hm hrow hcol (by decide)
  exact ⟨_, _, exec_eq_answered .step m q, exec_eq_answered .step _ q, h',
    h'.stepGeneration (inv_stepGeneration hm) hcol hrow (by decide)⟩

end Sys2Proof.Machine
end

section
/-!
The reference glider (95_test_vectors.md S8): its four generations as a run of STEPs through a list of patterns.
-/

namespace Sys2Proof.Machine

variable {c : Config} {m : Block c} {ax ay ox oy : Int} {pat : Pattern} {pats : List Pattern}

/-- A pattern moved by `(a, b)`. -/
def shiftPattern (a b : Int) (pat : Pattern) : Pattern := pat.map fun d => (a + d.1, b + d.2)

/-- Moving the anchor is moving the pattern. -/
theorem liveExactly_shift (a b : Int) :
    LiveExactly m ax ay (shiftPattern a b pat) ↔ LiveExactly m (ax + a) (ay + b) pat := by
  simp only [LiveExactly, shiftPattern, List.mem_map, exists_exists_and_eq_and, add_assoc]

/-- Where each pattern of a list becomes the next on the plane, and each fits the grid with room around it, STEPs
lead the torus through the list. -/
theorem LiveExactly.execAll_steps (q : Issuer c) (h : LiveExactly m ax ay pat) (hm : m.Inv)
    (hnext : List.IsChain Becomes (pat :: pats)) (hfit : ∀ p ∈ pat :: pats, FitsIn p ox oy c.W c.H) :
    ∃ m' q', execAll (pats.map fun _ => .step) ⟨c, m, q⟩ = .next ⟨c, m', q'⟩ ∧
      LiveExactly m' ax ay ((pat :: pats).getLast (List.cons_ne_nil _ _)) := by
  induction pats generalizing m q pat with
  | nil => exact ⟨m, q, rfl, h⟩
  | cons pat' pats ih =>
    obtain ⟨hbecomes, hrest⟩ := List.isChain_cons_cons.1 hnext
    obtain ⟨hpat, hpats⟩ := List.forall_mem_cons.1 hfit
    have h' := h.stepGeneration hm hpat (hpats pat' List.mem_cons_self) hbecomes
    rw [List.map_cons, execAll_cons (exec_step m q), List.getLast_cons_cons]
    exact ih _ h' (inv_stepGeneration hm) hrest hpats

/-- The next four generations of the reference glider, the last of which is the glider moved by `(1, 1)`. -/
def gliderPhases : List Pattern :=
  [[(0, 1), (2, 1), (1, 2), (2, 2), (1, 3)], [(2, 1), (0, 2), (2, 2), (1, 3), (2, 3)],
    [(1, 1), (2, 2), (3, 2), (1, 3), (2, 3)], shiftPattern 1 1 glider]

theorem gliderPhases_chain : List.IsChain Becomes (glider :: gliderPhases) := by decide

/-- Every phase keeps one cell away from the edges of the 6x6 window one cell up and left of the anchor. -/
theorem gliderPhases_fit : ∀ p ∈ glider :: gliderPhases, FitsIn p (-1) (-1) 6 6 := by decide

/-- Settles O32: four STEPs lead through the glider's phases, and the last is the glider at the moved anchor. -/
theorem gliderMovesDiagonallyInFourSteps : Obligations.GliderMovesDiagonallyInFourSteps := by
  intro c m q x y hm hW hH h
  obtain ⟨m', q', hrun, hlast⟩ := h.execAll_steps q hm gliderPhases_chain
    fun p hp => (gliderPhases_fit p hp).mono hW hH
  exact ⟨m', q', hrun, (liveExactly_shift 1 1).1 hlast⟩

end Sys2Proof.Machine
end

section
/-!
The pattern seeder and the system commands (45_seed_system.md): what seeding leaves unchanged, and SEED, NOP and
RDSTAT.
-/

namespace Sys2Proof.Machine

variable {c : Config}

/-! ### The seeder -/

@[simp] theorem seedPattern_act (m : Block c) (b : Fin 2) (ax ay : Int) (pat : Pattern) :
    (seedPattern m b ax ay pat).act = m.act := by
  rw [seedPattern_eq, writeCells_act]

@[simp] theorem seedPattern_flt (m : Block c) (b : Fin 2) (ax ay : Int) (pat : Pattern) :
    (seedPattern m b ax ay pat).flt = m.flt := by
  rw [seedPattern_eq, writeCells_flt]

theorem seedPattern_buf_of_ne (m : Block c) {b b' : Fin 2} (h : b' ≠ b) (ax ay : Int) (pat : Pattern) :
    (seedPattern m b ax ay pat).buf b' = m.buf b' := by
  rw [seedPattern_eq, writeCells_buf_of_ne m h]

theorem wf_seedPattern {m : Block c} {b : Fin 2} (h : (m.buf b).wf) (ax ay : Int) (pat : Pattern) :
    ((seedPattern m b ax ay pat).buf b).wf := by
  rw [seedPattern_eq]
  refine wf_writeCells h fun w hw => ?_
  obtain ⟨d, _, rfl⟩ := List.mem_map.1 hw
  exact toIndex_lt c _ _

/-- A cell is alive after seeding exactly when it was or the pattern names it (rule R140). -/
theorem getState_seedPattern_iff {m : Block c} {b : Fin 2} (hr : Memory.rising (m.buf b)) (ax ay : Int)
    (pat : Pattern) (i : Nat) :
    getState (seedPattern m b ax ay pat) b i = true ↔
      getState m b i = true ∨ ∃ d ∈ pat, toIndex c (ax + d.1) (ay + d.2) = i := by
  simp only [getState_seedPattern hr, Bool.or_eq_true, List.any_eq_true, decide_eq_true_eq]

/-- What seeding makes of a canonical buffer depends only on which offsets the pattern has. -/
theorem seedPattern_congr {m : Block c} {b : Fin 2} (hm : (m.buf b).wf) (ax ay : Int) {pat pat' : Pattern}
    (h : ∀ d, d ∈ pat ↔ d ∈ pat') : seedPattern m b ax ay pat = seedPattern m b ax ay pat' := by
  refine Block.ext_of_buf (fun b' => ?_) (by simp) (by simp)
  by_cases hb : b' = b
  · subst hb
    refine Memory.ext_of_cellRead (wf_seedPattern hm ax ay pat) (wf_seedPattern hm ax ay pat') fun i _ => ?_
    have hnamed : (∃ d ∈ pat, toIndex c (ax + d.1) (ay + d.2) = i) ↔
        ∃ d ∈ pat', toIndex c (ax + d.1) (ay + d.2) = i := by simp only [h]
    exact Bool.eq_iff_iff.2 ((getState_seedPattern_iff hm.1 ax ay pat i).trans
      ((or_congr_right hnamed).trans (getState_seedPattern_iff hm.1 ax ay pat' i).symm))
  · rw [seedPattern_buf_of_ne m hb, seedPattern_buf_of_ne m hb]

/-- Settles O34: rearranged patterns have the same offsets. -/
theorem seedIsIndependentOfOffsetOrder : Obligations.SeedIsIndependentOfOffsetOrder := by
  intro c m b ax ay pat pat' hwf0 hwf1 hperm
  have hm : m.canonical := Fin.forall_fin_two.2 ⟨hwf0, hwf1⟩
  exact seedPattern_congr (hm b) ax ay fun _ => hperm.mem_iff

/-! ### SEED -/

/-- SEED of a pattern id past the table is the fault PAT_RANGE and nothing else (rules R142, R164). -/
theorem exec_seed_of_le (m : Block c) (q : Issuer c) (ax ay : Int) {pid : Nat} (h : c.PAT.length ≤ pid) :
    exec (.seed ax ay pid) ⟨c, m, q⟩ = faulted m q 3 := by
  have hpat : patternOf c pid = none := List.getElem?_eq_none h
  rw [exec_eq_answered]
  simp only [meaning, seed, hpat]
  rfl

/-- Settles O33: a pattern of the table is seeded (`exec_seed_of_lt`), and any other id faults
(`exec_seed_of_le`). -/
theorem seedAddsThePattern : Obligations.SeedAddsThePattern := by
  refine fun c => ⟨?_, fun m ax ay pid hm => ⟨fun h => ?_, fun h q => exec_seed_of_le m q ax ay h⟩⟩
  · simp only [sextValue_eq_toInt]
    exact selects_of_legal (by decide)
  · exact ⟨seedPattern m m.act ax ay c.PAT[pid], fun q => exec_seed_of_lt m q ax ay h,
      getState_seedPattern_iff (hm.rising _) ax ay _, seedPattern_buf_of_ne m (otherBuf_ne _) ax ay _,
      seedPattern_act .., seedPattern_flt ..⟩

/-! ### RDSTAT -/

/-- Any number of STEPs completes; each swaps the role flag, and none faults (rules R126, R147). -/
theorem execAll_step_registers (n : Nat) (m : Block c) (q : Issuer c) :
    ∃ m' q', execAll (List.replicate n .step) ⟨c, m, q⟩ = .next ⟨c, m', q'⟩ ∧
      m'.act.val = (m.act.val + n) % 2 ∧ m'.flt = m.flt := by
  induction n generalizing m q with
  | zero => exact ⟨m, q, rfl, (Nat.mod_eq_of_lt m.act.isLt).symm, rfl⟩
  | succ n ih =>
    obtain ⟨m', q', hrun, hact, hflt⟩ := ih (stepGeneration m) (q.receive {})
    rw [stepGeneration_act, otherBuf_val] at hact
    rw [stepGeneration_flt] at hflt
    rw [List.replicate_succ, execAll_cons (exec_step m q)]
    exact ⟨m', q', hrun, by omega, hflt⟩

/-- Settles O36: `exec_rdstat`; reset has both registers 0, and STEPs count on from there; a fault is recorded by
`stickyFlt`. -/
theorem rdstatReadsTheStatusRegisters : Obligations.RdstatReadsTheStatusRegisters := by
  refine fun c => ⟨selects_of_legal (by decide), exec_rdstat, fun n => ?_,
    fun m f => ⟨fun h => if_pos h, fun h => if_neg h⟩⟩
  obtain ⟨m', q', hrun, hact, hflt⟩ := execAll_step_registers n (Block.reset c) {}
  have hact0 : (Block.reset c).act.val = 0 := rfl
  rw [hact0, Nat.zero_add] at hact
  exact ⟨m', q', hrun, hact, hflt⟩

/-! ### NOP -/

/-- Settles O35: the decoder reads the header alone, and NOP's meaning is the block as it is. -/
theorem nopAnswersZero : Obligations.NopAnswersZero :=
  fun _ => ⟨selects_of_legal (by decide), decode_of_headerError (by decide), exec_eq_answered .nop⟩

end Sys2Proof.Machine
end

section
/-!
Exceptions (60_exceptions.md sections 1, 2 and 5): construction, the one fault of a command, and its preciseness.
-/

namespace Sys2Proof

variable {W H BPW CW P : Int}

/-- Parameters that meet every premise of rule R161 give the configuration of exactly those parameters. -/
theorem Config.ofParams_of_legal (PAT : List Pattern)
    (h : 1 ≤ W ∧ 1 ≤ H ∧ 1 ≤ BPW ∧ 2 ≤ CW ∧ 1 ≤ P) :
    ∃ c : Config, Config.ofParams W H BPW CW P PAT = some c ∧ (c.W : Int) = W ∧ (c.H : Int) = H ∧
      (c.BPW : Int) = BPW ∧ (c.CW : Int) = CW ∧ (c.P : Int) = P ∧ c.PAT = PAT :=
  ⟨_, dif_pos h, Int.toNat_of_nonneg (by omega), Int.toNat_of_nonneg (by omega), Int.toNat_of_nonneg (by omega),
    Int.toNat_of_nonneg (by omega), Int.toNat_of_nonneg (by omega), rfl⟩

end Sys2Proof

namespace Sys2Proof.Machine

variable {c : Config} {m : Block c}

/-! ### Construction -/

/-- Settles O2: `Config.ofParams` makes the configuration (`Config.ofParams_of_legal`) or, a premise broken,
none. -/
theorem constructionResetsOrRejects : Obligations.ConstructionResetsOrRejects := by
  refine fun W H BPW CW P PAT => ⟨fun h => ?_, fun h => ?_⟩
  · obtain ⟨c, hc, hW, hH, hBPW, hCW, hP, hPAT⟩ := Config.ofParams_of_legal PAT h
    exact ⟨c, hW, hH, hBPW, hCW, hP, hPAT, by rw [construct, hc]⟩
  · have hnone : Config.ofParams W H BPW CW P PAT = none := dif_neg h
    rw [construct, hnone]

/-! ### The code of the only fault -/

/-- An index check before a result that says OK gives the only STATUS (rule R163). -/
theorem withIndex_status {r : Result c} (hr : r.2.status = 0) (i : Nat) :
    (withIndex m i r).2.status = if c.N ≤ i then 2 else 0 := by
  split
  next hle => rw [withIndex_of_le hle]; rfl
  next hlt => rw [withIndex_of_lt (Nat.lt_of_not_le hlt), hr]

/-- The table look-up gives SEED's STATUS (rule R164). -/
theorem seed_status_eq (ax ay : Int) (pid : Nat) (m : Block c) :
    (seed ax ay pid m).2.status = if c.NPAT ≤ pid then 3 else 0 := by
  split
  next hle =>
    have hpat : patternOf c pid = none := List.getElem?_eq_none hle
    simp only [seed, hpat]
    rfl
  next hlt =>
    have hpat : patternOf c pid = some _ := List.getElem?_eq_getElem (Nat.lt_of_not_le hlt)
    simp only [seed, hpat]

/-- The operations that read OPI are the index-addressed commands, and it is their index (rules R61, R65). -/
theorem instrOf_mem_indexed {op : Nibble} (h : readsI op = true) (v : Bool) (a : OperandRecord c) :
    instrOf op v a ∈ [Instr.fromidx a.opi.toNat, .getI a.opi.toNat, .setaI a.opi.toNat, .setdI a.opi.toNat,
      .setsI a.opi.toNat v] := by
  have hop : op = 0x2 ∨ op = 0x4 ∨ op = 0x8 ∨ op = 0x9 ∨ op = 0xA := by revert op; decide
  rcases hop with rfl | rfl | rfl | rfl | rfl <;> simp [instrOf]

/-- The commands with no operand check say OK. -/
theorem status_of_unchecked {op : Nibble} (hi : ¬ readsI op = true) (hseed : op ≠ 0xE) (v : Bool)
    (a : OperandRecord c) (m : Block c) : (meaning (instrOf op v a) m).2.status = 0 := by
  have hop : op = 0x0 ∨ op = 0x1 ∨ op = 0x3 ∨ op = 0x5 ∨ op = 0x6 ∨ op = 0x7 ∨ op = 0xB ∨ op = 0xC ∨ op = 0xD ∨
      op = 0xF := by
    revert op; decide
  rcases hop with rfl | rfl | rfl | rfl | rfl | rfl | rfl | rfl | rfl | rfl <;> rfl

/-- The STATUS of a command with a legal header: it has one operand check or none (rule R166). -/
theorem status_meaning_instrOf (op : Nibble) (v : Bool) (a : OperandRecord c) (m : Block c) :
    (meaning (instrOf op v a) m).2.status =
      if readsI op = true ∧ c.N ≤ a.opi.toNat then 2 else if op = 0xE ∧ c.NPAT ≤ a.opp.toNat then 3 else 0 := by
  by_cases hi : readsI op = true
  · obtain ⟨r, hr, hok⟩ := meaning_of_indexed m (instrOf_mem_indexed hi v a)
    have hseed : op ≠ 0xE := by rintro rfl; cases hi
    simp only [hr, withIndex_status hok, hi, hseed, true_and, false_and, if_false]
  · rw [if_neg fun h => hi h.1]
    by_cases hseed : op = 0xE
    · subst hseed
      exact (seed_status_eq _ _ _ m).trans (by simp)
    · rw [status_of_unchecked hi hseed, if_neg fun h => hseed h.1]

/-- The STATUS of a command, the header checked first (rules R160, R166). -/
theorem status_perform (cmd : Command c) (m : Block c) :
    (perform cmd m).2.status =
      if cmd.hd.toNat ∉ legalHeaders then 1
      else if readsI (opField cmd.hd) = true ∧ c.N ≤ cmd.args.opi.toNat then 2
      else if opField cmd.hd = 0xE ∧ c.NPAT ≤ cmd.args.opp.toNat then 3
      else 0 := by
  by_cases hlegal : cmd.hd.toNat ∈ legalHeaders
  · rw [perform_decoded (decode_of_legal hlegal cmd.args), status_meaning_instrOf, if_neg (not_not.2 hlegal)]
  · obtain ⟨e, he⟩ := decode_of_illegal hlegal
    rw [perform_illegal he, if_pos hlegal]
    rfl

/-- Settles O39: a step performs the command, whose STATUS is `status_perform` and which `perform_flt` records. -/
theorem statusIsTheCodeOfTheOnlyFault : Obligations.StatusIsTheCodeOfTheOnlyFault :=
  fun _ m _ cmd _ hp => ⟨_, _, step_perform hp, status_perform cmd m, perform_flt cmd m⟩

/-! ### A fault is precise -/

/-- A command that ends with a nonzero STATUS raised a fault and did nothing else. -/
theorem raiseFault_of_effect {i : Instr} {r : Result c} (h : Effect i m r) (hs : r.2.status ≠ 0) :
    ∃ f, r = raiseFault m f := by
  cases h with
  | answers r hr hi => exact absurd hr hs
  | faults f hi => exact ⟨f, rfl⟩
  | writes ws hw hi => exact absurd rfl hs
  | steps hi => exact absurd rfl hs

/-- Any command issued that reports a nonzero STATUS raised a fault and did nothing else, a refused header included
(rule R165). -/
theorem raiseFault_of_perform {cmd : Command c} (hs : (perform cmd m).2.status ≠ 0) :
    ∃ f, perform cmd m = raiseFault m f := by
  match hd : decode cmd with
  | .error e => exact ⟨.illegalCmd, perform_illegal hd⟩
  | .ok i =>
    rw [perform_decoded hd] at hs ⊢
    exact raiseFault_of_effect (meaning_effect i m) hs

/-- Settles O40: a step that answers performed a command, which raised the fault it reports
(`raiseFault_of_perform`). -/
theorem faultsHaveNoOtherEffect : Obligations.FaultsHaveNoOtherEffect := by
  intro c m m' q q' r hstep hr hs
  match hp : q.pending with
  | [] =>
    rw [step_idle hp] at hstep
    cases hstep
    simp at hr
  | cmd :: rest =>
    rw [step_perform hp] at hstep ⊢
    cases hstep
    obtain rfl : (perform cmd m).2 = r := by simpa using hr
    obtain ⟨f, hf⟩ := raiseFault_of_perform hs
    rw [hf]
    exact ⟨faultCode_legal f, rfl⟩

/-! ### Nothing stops the machine -/

/-- Settles O44: `step_to`, the configuration being the one the step started with. -/
theorem everyStepEndsInANextState : Obligations.EveryStepEndsInANextState := by
  rintro ⟨c, m, q⟩
  obtain ⟨m', q', hstep, -⟩ := step_to m q
  exact ⟨_, hstep, rfl⟩

/-- Settles O43: `step_idle`, for every block and host. -/
theorem idleBlockHoldsItsState : Obligations.IdleBlockHoldsItsState := fun _ _ _ hp => step_idle hp

end Sys2Proof.Machine
end

section
/-!
Workers make progress (rules R174, R185): in every unfinished sweep some worker can move, and every move lowers the
number of events still needed (`Sweep.cost`).
-/

namespace Sys2Proof.Machine

variable {c : Config} {g : Sweep c} {p i : Nat} {rest : List Nat}

@[simp] theorem worker_cost_of_free (todo : List Nat) : (⟨todo, none⟩ : Worker c).cost = 2 * todo.length := rfl
@[simp] theorem worker_cost_of_held (i : Nat) (rest : List Nat) (b : BitVec c.BPW) :
    (⟨i :: rest, some b⟩ : Worker c).cost = 2 * rest.length + 1 := rfl

/-- A worker that holds a word can always write it back, whatever the others hold. -/
theorem cost_workerEvent_of_held (d : WriteDiscipline) {h : BitVec c.BPW}
    (hw : g.workers[p]? = some ⟨i :: rest, some h⟩) : (workerEvent d g ⟨p, 0⟩).cost < g.cost := by
  simp only [workerEvent, hw]
  exact cost_set_lt hw (by simp)

/-- A worker with a cell to write whose word no other holds can move: it updates the bit or reads the word. -/
theorem cost_workerEvent_of_free (d : WriteDiscipline) (hw : g.workers[p]? = some ⟨i :: rest, none⟩)
    (hfree : wordHeldByOther g p (i / c.BPW) = false) : (workerEvent d g ⟨p, 0⟩).cost < g.cost := by
  have hread (b : BitVec c.BPW) : ((g.workers.set p ⟨i :: rest, some b⟩).map Worker.cost).sum < g.cost := by
    refine cost_set_lt hw ?_
    rw [worker_cost_of_held, worker_cost_of_free, List.length_cons]
    omega
  cases d with
  | atomicBit =>
    simp only [workerEvent, hw]
    exact cost_set_lt hw (by simp)
  | plain =>
    simp only [workerEvent, hw]
    exact hread _
  | wordLock =>
    simp only [workerEvent, hw, hfree]
    exact hread _

/-- A held word has a holder, which still has a cell to write. -/
theorem exists_holder {k : Nat} (h : wordHeldByOther g p k = true) :
    ∃ (q j : Nat) (s : List Nat) (b : BitVec c.BPW), g.workers[q]? = some ⟨j :: s, some b⟩ := by
  obtain ⟨⟨⟨todo, held⟩, q⟩, hmem, hholds⟩ := List.any_eq_true.1 h
  have hq : g.workers[q]? = some ⟨todo, held⟩ := List.mem_zipIdx_iff_getElem?.1 hmem
  cases held with
  | none => simp at hholds
  | some b =>
    cases todo with
    | nil => simp at hholds
    | cons j s => exact ⟨q, j, s, b, hq⟩

/-- In an unfinished sweep some worker can move: one with a cell to write, or the holder of the word it waits
for, which itself waits for nothing. -/
theorem exists_event_cost_lt (d : WriteDiscipline) (hfin : ¬ g.finished = true) :
    ∃ e, (workerEvent d g e).cost < g.cost := by
  obtain ⟨⟨todo, held⟩, hmem, htodo⟩ : ∃ w ∈ g.workers, w.todo ≠ [] := by
    simpa [Sweep.finished] using hfin
  obtain ⟨p, hp⟩ := List.getElem?_of_mem hmem
  obtain ⟨i, rest, rfl⟩ := List.exists_cons_of_ne_nil htodo
  cases held with
  | some h => exact ⟨_, cost_workerEvent_of_held d hp⟩
  | none =>
    cases hheld : wordHeldByOther g p (i / c.BPW) with
    | false => exact ⟨_, cost_workerEvent_of_free d hp hheld⟩
    | true =>
      obtain ⟨q, j, s, b, hq⟩ := exists_holder hheld
      exact ⟨_, cost_workerEvent_of_held d hq⟩

/-- From any sweep, reached from a start or not, some events finish it. -/
theorem exists_events_finished (d : WriteDiscipline) (g : Sweep c) :
    ∃ es, (runSweep d g es).finished = true := by
  induction hn : g.cost using Nat.strong_induction_on generalizing g with
  | _ n ih =>
    by_cases hfin : g.finished = true
    · exact ⟨[], hfin⟩
    · obtain ⟨e, he⟩ := exists_event_cost_lt d hfin
      obtain ⟨es, hes⟩ := ih _ (hn ▸ he) _ rfl
      exact ⟨e :: es, hes⟩

/-- Settles O55: `exists_events_finished` from the sweep that the events so far have reached, and a finished sweep
swaps. -/
theorem workersNeverDeadlock : Obligations.WorkersNeverDeadlock := by
  intro c d ps m es
  obtain ⟨es', hfin⟩ := exists_events_finished d (runSweep d (startSweep m ps) es)
  rw [runSweep, runSweep, ← List.foldl_append] at hfin
  exact ⟨es', _, if_pos hfin⟩

end Sys2Proof.Machine
end

section
/-!
Killing every cell without a reset (70_reset_and_hazards.md rule R181): the commands CLEARALL stands for are one
SETD.I for each cell, and a run of them is the list of those cell writes to the active buffer.
-/

namespace Sys2Proof.Machine

variable {c : Config}

/-- Instructions that all fit assemble to their encodings (rule R69). -/
theorem assembleInstrs_of_wellFormed {is : List Instr} (h : ∀ i ∈ is, i.wellFormed c = true) :
    assembleInstrs c is = some (is.map (encode c)) := by
  induction is with
  | nil => rfl
  | cons i is ih =>
    obtain ⟨hi, his⟩ := List.forall_mem_cons.1 h
    rw [assembleInstrs, if_pos hi, ih his]
    rfl

/-- The index of a cell fits its field (rule R63). -/
theorem wellFormed_setdI {i : Nat} (h : i < c.N) : (Instr.setdI i).wellFormed c = true :=
  decide_eq_true (c.lt_two_pow_IW h)

/-- The step that performs SETD.I of a cell (rule R101). -/
theorem step_setdI {i : Nat} (h : i < c.N) (m : Block c) (rest : List (Command c)) (rs : List (Response c)) :
    step ⟨c, m, ⟨encode c (.setdI i) :: rest, rs⟩⟩ =
      .next ⟨c, setDead m m.act i, ⟨rest, rs ++ [({} : Response c)]⟩⟩ := by
  rw [step_perform rfl, perform_decoded (decode_encode (wellFormed_setdI h)), meaning, setdI, withIndex_of_lt h]
  rfl

/-- A run of SETD.I commands kills the cells they name, one after the other. -/
theorem run_setdI {is : List Nat} (h : ∀ i ∈ is, i < c.N) (m : Block c) (rs : List (Response c)) : ∃ q',
    Host.Core.run core ((is.map Instr.setdI).map (encode c)).length
      (⟨c, m, ⟨(is.map Instr.setdI).map (encode c), rs⟩⟩ : State) =
      .next (⟨c, writeCells m m.act (is.map fun i => (i, false)), q'⟩ : State) := by
  induction is generalizing m rs with
  | nil => exact ⟨_, rfl⟩
  | cons i is ih =>
    obtain ⟨hi, his⟩ := List.forall_mem_cons.1 h
    obtain ⟨q', hrest⟩ := ih his (setDead m m.act i) (rs ++ [({} : Response c)])
    rw [setDead, setState_act] at hrest
    exact ⟨q', (run_succ (step_setdI hi m _ rs)).trans hrest⟩

/-- Writing `v` to every cell of a buffer leaves `v` in each. -/
theorem getState_writeCells_range {m : Block c} {b : Fin 2} (hr : Memory.rising (m.buf b)) (v : Bool) {j : Nat}
    (hj : j < c.N) : getState (writeCells m b ((List.range c.N).map fun i => (i, v))) b j = v :=
  getState_writeCells_of_mem hr (List.mem_map.2 ⟨j, List.mem_range.2 hj, rfl⟩) fun w hw _ => by
    obtain ⟨i, _, rfl⟩ := List.mem_map.1 hw
    rfl

/-- Settles O59: CLEARALL assembles to one SETD.I for each cell, and their run (`run_setdI`) writes every cell of the
active buffer and nothing else. -/
theorem clearAllKillsEveryCell : Obligations.ClearAllKillsEveryCell := by
  intro c m rs hm
  have hcells : ∀ i ∈ List.range c.N, i < c.N := fun i => List.mem_range.1
  have hfit : ∀ i ∈ [AsmLine.clearAll].flatMap (expandLine c), i.wellFormed c = true := by
    rw [List.flatMap_singleton]
    exact List.forall_mem_map.2 fun i hi => wellFormed_setdI (hcells i hi)
  obtain ⟨q', hrun⟩ := run_setdI hcells m rs
  refine ⟨_, _, q', assembleInstrs_of_wellFormed hfit, by rwa [List.flatMap_singleton], fun i hi => ?_,
    writeCells_act m _ _, writeCells_flt m _ _, writeCells_buf_of_ne m (otherBuf_ne m.act) _⟩
  rw [writeCells_act]
  exact getState_writeCells_range (hm.rising m.act) false hi

end Sys2Proof.Machine
end

section
/-!
The shared-word hazard (70_reset_and_hazards.md section 3, rule R186): what a race can leave of a cell, and a race
that does lose one.
-/

namespace Sys2Proof.Machine

variable {c : Config} {m : Block c}

/-! ### Written or stale -/

/-- A cell of the future buffer is a bit of one of its words, so the bound on the words' bits holds of it. -/
theorem Sweep.Bounded.bitOk_cellRead {g : Sweep c} (hg : g.Bounded m) (j : Nat) :
    BitOk m j (cellRead g.future j) := by
  have h := hg.bits (j / c.BPW) (j % c.BPW) (mod_BPW_lt c j)
  rwa [Nat.div_add_mod'] at h

/-- Settles O56: `Sweep.Bounded` holds when the STEP begins and every event keeps it. -/
theorem racesLeaveWrittenOrStaleBits : Obligations.RacesLeaveWrittenOrStaleBits := by
  intro c d ps m es hm hlegal j
  have hbounded := (bounded_startSweep hlegal (hm.rising (otherBuf m.act))).run (d := d) es
  rcases hbounded.bitOk_cellRead j with hstale | ⟨hj, hwritten⟩
  · exact ⟨fun _ => .inr hstale, fun _ => hstale⟩
  · exact ⟨fun _ => .inl hwritten, fun hpad => absurd hj hpad.not_gt⟩

/-! ### A lost bit -/

/-- Two cells in one word of two bits, and two workers. -/
def twoCellWord : Config :=
  { W := 1, H := 2, BPW := 2, CW := 32, P := 2, PAT := []
    W_pos := by decide, H_pos := by decide, BPW_pos := by decide, CW_two := by decide, P_pos := by decide }

/-- Cell 0 alive.  It counts itself twice, for the grid is one cell wide (rule R111), and so lives on; the future
buffer is dead. -/
def survivor : Block twoCellWord := setAlive (Block.reset twoCellWord) 0 0

/-- A cell for each worker, so that the word has two owners. -/
def oneCellEach : Partition := [[0], [1]]

/-- Both workers read the word, worker 0 writes cell 0 back, and worker 1 then puts back the bit of cell 0 that it
read before. -/
def lateWriteBack : List (WorkerEvent twoCellWord) := [⟨0, 0⟩, ⟨1, 0⟩, ⟨0, 0⟩, ⟨1, 1⟩]

theorem survivor_inv : survivor.Inv := inv_writeCells (inv_reset twoCellWord) 0 (ws := [(0, true)]) (by decide)

theorem oneCellEach_legal : Partition.legal twoCellWord oneCellEach := by decide

/-- The word is split: with plain writes the partition conforms to nothing (rule R186), which the statement's words say
and its formula does not. -/
theorem oneCellEach_not_conforming : ¬ conforming twoCellWord .plain oneCellEach := by decide

theorem finished_lateWriteBack :
    (runSweep .plain (startSweep survivor oneCellEach) lateWriteBack).finished = true := by decide

theorem nextCell_survivor : nextCell survivor 0 = true := by decide

theorem cellRead_lateWriteBack :
    cellRead (runSweep .plain (startSweep survivor oneCellEach) lateWriteBack).future 0 = false := by decide

/-- Settles O57: all workers finish, cell 0 should be alive, and the late write-back leaves it dead. -/
theorem plainWritesCanLoseABit : Obligations.PlainWritesCanLoseABit := by
  refine ⟨twoCellWord, oneCellEach, survivor, lateWriteBack, 0, survivor_inv, oneCellEach_legal,
    finished_lateWriteBack, by decide, ?_⟩
  rw [cellRead_lateWriteBack, nextCell_survivor]
  decide

end Sys2Proof.Machine
end
